-- ==== Sys2Proof/Word.lean ====
section
/-! DEFINITION. The word types of the engine (spec/10_state.md, spec/30_encoding.md rule R71). Everything the spec
treats as bits is a bit vector of its stated width; counts and computed addresses before narrowing are `Nat`. -/

namespace Sys2Proof

/-- One hexadecimal digit of an opcode: a register number, a key index, a row count (30_encoding R71). -/
abbrev Nibble := BitVec 4

/-- One byte of memory, one general register, one timer (10_state R21, R30, R36). -/
abbrev Byte := BitVec 8

/-- The NNN field (30_encoding R71). -/
abbrev Addr12 := BitVec 12

/-- `I`, `pc`, a stack slot, an opcode (10_state R23, R24, R28; 30_encoding R70). -/
abbrev Word := BitVec 16

end Sys2Proof
end

