-- ==== Sys2Proof/Config.lean ====
section
/-! DEFINITION. What is fixed for the machine: the fixed parameters of spec/00_scope.md rule R6, the types of the
open parameters of rule R7 (their VALUES stand in Machine/Params.lean, where a repair can reach them), and the one
free value of the spec, the draw of CXNN, which has no body. -/

namespace Sys2Proof.Config

/-- `MEM_SIZE`: bytes of memory, addresses 0x000..0xFFF (R6). -/
abbrev memSize : Nat := 4096

/-- `FONT_BYTES`: 16 glyphs of 5 bytes from `FONT_BASE` = 0x000 (R6). -/
abbrev fontBytes : Nat := 80

/-- `GLYPH_BYTES`: bytes of one glyph (R6). -/
abbrev glyphBytes : Nat := 5

/-- `PROG_BASE`: load address and reset pc (R6). -/
abbrev progBase : Nat := 0x200

/-- `PROG_MAX`: the longest loadable program, 4096 - 0x200 (R6). -/
abbrev progMax : Nat := 3584

/-- `STACK_DEPTH`: call stack slots (R6). -/
abbrev stackDepth : Nat := 16

/-- `FB_W`: framebuffer columns (R6). -/
abbrev fbWidth : Nat := 64

/-- `FB_H`: framebuffer rows (R6). -/
abbrev fbHeight : Nat := 32

/-- `INSTR_BYTES`: every instruction is one 16-bit word (R6). -/
abbrev instrBytes : Nat := 2

/-- `KEY_INDEX_POLICY`: what EX9E and EXA1 do with V[X] > 15 (R7; 92_eei_decisions D4). -/
inductive KeyIndexPolicy where
  /-- raise KeyIndexOutOfRange -/
  | fault
  /-- use V[X] mod 16 -/
  | mask
  deriving DecidableEq, Repr

/-- `VF_ORDER`: which write survives when X = F in a flag-writing instruction (R7; 92_eei_decisions D5). -/
inductive VfOrder where
  /-- result first, flag last: VF ends as the flag -/
  | flagLast
  /-- flag first, result last: VF ends as the arithmetic result -/
  | resultLast
  deriving DecidableEq, Repr

/-- `RANDOM`, the free value: the n-th `random_byte()` of CXNN (R7; 41_alu R133; 92_eei_decisions D12). It has no
body, so nothing can be proved of any draw. `State.draws` says which draw is next. DESIGN CHOICE, safe for a claim about one
run; it is one function for every engine and every run, a point the spec leaves open (91_not_in_source N11), so unsafe for
a claim that compares two: notes/assumptions/4.md. -/
opaque randomDraw : Nat → Byte

end Sys2Proof.Config
end

