-- ==== Sys2Proof/Syntax.lean ====
section
/-! DEFINITION. The 33 instructions of spec/opcode_table.json, one constructor per row, in the table's order
(spec/30_encoding.md rule R78). The operand fields have exactly the widths of the encoding (R71, R72), so every
term is an instruction the decoder can give. -/

namespace Sys2Proof

/-- An instruction. `x`, `y` are the X and Y fields, `nn` the 8-bit immediate, `nnn` the 12-bit address, `n` the
row count of DXYN. SHR and SHL keep the Y field their pattern holds, though it has no effect (R76). -/
inductive Instr where
  /-- 00E0 (43_display R160) -/
  | cls
  /-- 00EE (40_flow R100) -/
  | ret
  /-- 1NNN (40_flow R101) -/
  | jp (nnn : Addr12)
  /-- 2NNN (40_flow R102) -/
  | call (nnn : Addr12)
  /-- 3XNN (40_flow R104) -/
  | sei (x : Nibble) (nn : Byte)
  /-- 4XNN (40_flow R105) -/
  | snei (x : Nibble) (nn : Byte)
  /-- 5XY0 (40_flow R106) -/
  | ser (x y : Nibble)
  /-- 6XNN (41_alu R120) -/
  | ldi (x : Nibble) (nn : Byte)
  /-- 7XNN (41_alu R121) -/
  | addi (x : Nibble) (nn : Byte)
  /-- 8XY0 (41_alu R122) -/
  | mov (x y : Nibble)
  /-- 8XY1 (41_alu R123) -/
  | or (x y : Nibble)
  /-- 8XY2 (41_alu R124) -/
  | and (x y : Nibble)
  /-- 8XY3 (41_alu R125) -/
  | xor (x y : Nibble)
  /-- 8XY4 (41_alu R126) -/
  | add (x y : Nibble)
  /-- 8XY5 (41_alu R127) -/
  | sub (x y : Nibble)
  /-- 8XY6 (41_alu R128) -/
  | shr (x y : Nibble)
  /-- 8XYE (41_alu R129) -/
  | shl (x y : Nibble)
  /-- 9XY0 (40_flow R107) -/
  | sner (x y : Nibble)
  /-- ANNN (42_index_memory R140) -/
  | seti (nnn : Addr12)
  /-- BNNN (40_flow R103) -/
  | jpv0 (nnn : Addr12)
  /-- CXNN (41_alu R133) -/
  | rnd (x : Nibble) (nn : Byte)
  /-- DXYN (43_display R161) -/
  | drw (x y n : Nibble)
  /-- EX9E (44_keypad_timers R170) -/
  | skp (x : Nibble)
  /-- EXA1 (44_keypad_timers R171) -/
  | sknp (x : Nibble)
  /-- FX07 (44_keypad_timers R175) -/
  | gdt (x : Nibble)
  /-- FX0A (44_keypad_timers R172) -/
  | wkey (x : Nibble)
  /-- FX15 (44_keypad_timers R176) -/
  | sdt (x : Nibble)
  /-- FX18 (44_keypad_timers R177) -/
  | sst (x : Nibble)
  /-- FX1E (42_index_memory R141) -/
  | adi (x : Nibble)
  /-- FX29 (42_index_memory R142) -/
  | font (x : Nibble)
  /-- FX33 (42_index_memory R143) -/
  | bcd (x : Nibble)
  /-- FX55 (42_index_memory R145) -/
  | stm (x : Nibble)
  /-- FX65 (42_index_memory R146) -/
  | ldm (x : Nibble)
  deriving DecidableEq, Repr

end Sys2Proof
end

