-- ==== Sys2Proof/WellFormed.lean ====
section
/-! DEFINITION. Well-formedness. A term of `Instr` is well-formed by its types. What can be ill-formed is an
instruction as it is WRITTEN, a mnemonic with numeric operands (spec/30_encoding.md rules R81 to R83): its operand
count can be wrong and "a value that does not fit the field is an assembly error". `SourceLine.wellFormed` is that
check, `SourceLine.toInstr` the instruction a well-formed line stands for, `Instr.toLine` the disassembly. -/

namespace Sys2Proof

/-- The 33 mnemonics of R78 and R82. -/
inductive Mnemonic where
  | CLS | RET | JP | CALL | SEI | SNEI | SER | LDI | ADDI | MOV | OR | AND | XOR | ADD | SUB | SHR | SHL | SNER
  | SETI | JPV0 | RND | DRW | SKP | SKNP | GDT | WKEY | SDT | SST | ADI | FONT | BCD | STM | LDM
  deriving DecidableEq, Repr

/-- What an operand of a source line names (R82). -/
inductive OperandKind where
  /-- a register V0..VF, in the X or Y field -/
  | reg
  /-- NN -/
  | imm8
  /-- the N of DXYN -/
  | imm4
  /-- NNN -/
  | addr12
  deriving DecidableEq, Repr

/-- The number of values an operand's field holds (30_encoding R71). -/
def OperandKind.bound : OperandKind → Nat
  | .reg => 16
  | .imm8 => 256
  | .imm4 => 16
  | .addr12 => 4096

/-- The operands of each mnemonic, in the order they are written (R82). -/
def Mnemonic.operands : Mnemonic → List OperandKind
  | .CLS | .RET => []
  | .JP | .CALL | .SETI | .JPV0 => [.addr12]
  | .SEI | .SNEI | .LDI | .ADDI | .RND => [.reg, .imm8]
  | .SER | .MOV | .OR | .AND | .XOR | .ADD | .SUB | .SNER => [.reg, .reg]
  | .DRW => [.reg, .reg, .imm4]
  | .SHR | .SHL => [.reg]
  | .SKP | .SKNP | .GDT | .WKEY | .SDT | .SST | .ADI | .FONT | .BCD | .STM | .LDM => [.reg]

/-- SHR and SHL may also be written with their ignored Y register (R83). -/
def Mnemonic.altOperands : Mnemonic → List OperandKind
  | .SHR => [.reg, .reg]
  | .SHL => [.reg, .reg]
  | m => m.operands

/-- One instruction as it is written (R82): a mnemonic and its operands' numeric values. -/
structure SourceLine where
  mnemonic : Mnemonic
  operands : List Nat
  deriving DecidableEq, Repr

/-- The operand values are as many as the kinds, and each fits its field. -/
def operandsFit : List OperandKind → List Nat → Bool
  | [], [] => true
  | k :: ks, v :: vs => decide (v < k.bound) && operandsFit ks vs
  | _, _ => false

/-- The check of R82: right number of operands, every one fits its field. -/
def SourceLine.wellFormed (l : SourceLine) : Bool :=
  operandsFit l.mnemonic.operands l.operands || operandsFit l.mnemonic.altOperands l.operands

/-- The operand values put into the fields of the mnemonic's instruction; none for a wrong number of operands. A Y
that is not written is 0 (R82). -/
def SourceLine.fields (l : SourceLine) : Option Instr :=
  match l.mnemonic, l.operands with
  | .CLS, [] => some .cls
  | .RET, [] => some .ret
  | .JP, [a] => some (.jp (BitVec.ofNat 12 a))
  | .CALL, [a] => some (.call (BitVec.ofNat 12 a))
  | .SEI, [x, k] => some (.sei (BitVec.ofNat 4 x) (BitVec.ofNat 8 k))
  | .SNEI, [x, k] => some (.snei (BitVec.ofNat 4 x) (BitVec.ofNat 8 k))
  | .SER, [x, y] => some (.ser (BitVec.ofNat 4 x) (BitVec.ofNat 4 y))
  | .LDI, [x, k] => some (.ldi (BitVec.ofNat 4 x) (BitVec.ofNat 8 k))
  | .ADDI, [x, k] => some (.addi (BitVec.ofNat 4 x) (BitVec.ofNat 8 k))
  | .MOV, [x, y] => some (.mov (BitVec.ofNat 4 x) (BitVec.ofNat 4 y))
  | .OR, [x, y] => some (.or (BitVec.ofNat 4 x) (BitVec.ofNat 4 y))
  | .AND, [x, y] => some (.and (BitVec.ofNat 4 x) (BitVec.ofNat 4 y))
  | .XOR, [x, y] => some (.xor (BitVec.ofNat 4 x) (BitVec.ofNat 4 y))
  | .ADD, [x, y] => some (.add (BitVec.ofNat 4 x) (BitVec.ofNat 4 y))
  | .SUB, [x, y] => some (.sub (BitVec.ofNat 4 x) (BitVec.ofNat 4 y))
  | .SHR, [x] => some (.shr (BitVec.ofNat 4 x) 0)
  | .SHR, [x, y] => some (.shr (BitVec.ofNat 4 x) (BitVec.ofNat 4 y))
  | .SHL, [x] => some (.shl (BitVec.ofNat 4 x) 0)
  | .SHL, [x, y] => some (.shl (BitVec.ofNat 4 x) (BitVec.ofNat 4 y))
  | .SNER, [x, y] => some (.sner (BitVec.ofNat 4 x) (BitVec.ofNat 4 y))
  | .SETI, [a] => some (.seti (BitVec.ofNat 12 a))
  | .JPV0, [a] => some (.jpv0 (BitVec.ofNat 12 a))
  | .RND, [x, k] => some (.rnd (BitVec.ofNat 4 x) (BitVec.ofNat 8 k))
  | .DRW, [x, y, n] => some (.drw (BitVec.ofNat 4 x) (BitVec.ofNat 4 y) (BitVec.ofNat 4 n))
  | .SKP, [x] => some (.skp (BitVec.ofNat 4 x))
  | .SKNP, [x] => some (.sknp (BitVec.ofNat 4 x))
  | .GDT, [x] => some (.gdt (BitVec.ofNat 4 x))
  | .WKEY, [x] => some (.wkey (BitVec.ofNat 4 x))
  | .SDT, [x] => some (.sdt (BitVec.ofNat 4 x))
  | .SST, [x] => some (.sst (BitVec.ofNat 4 x))
  | .ADI, [x] => some (.adi (BitVec.ofNat 4 x))
  | .FONT, [x] => some (.font (BitVec.ofNat 4 x))
  | .BCD, [x] => some (.bcd (BitVec.ofNat 4 x))
  | .STM, [x] => some (.stm (BitVec.ofNat 4 x))
  | .LDM, [x] => some (.ldm (BitVec.ofNat 4 x))
  | _, _ => none

/-- The instruction a source line stands for; an ill-formed line is an assembly error (R82). -/
def SourceLine.toInstr (l : SourceLine) : Option Instr :=
  if l.wellFormed then l.fields else none

/-- The row of the instruction list an instruction belongs to (R78). -/
def Instr.mnemonic : Instr → Mnemonic
  | .cls => .CLS
  | .ret => .RET
  | .jp _ => .JP
  | .call _ => .CALL
  | .sei _ _ => .SEI
  | .snei _ _ => .SNEI
  | .ser _ _ => .SER
  | .ldi _ _ => .LDI
  | .addi _ _ => .ADDI
  | .mov _ _ => .MOV
  | .or _ _ => .OR
  | .and _ _ => .AND
  | .xor _ _ => .XOR
  | .add _ _ => .ADD
  | .sub _ _ => .SUB
  | .shr _ _ => .SHR
  | .shl _ _ => .SHL
  | .sner _ _ => .SNER
  | .seti _ => .SETI
  | .jpv0 _ => .JPV0
  | .rnd _ _ => .RND
  | .drw _ _ _ => .DRW
  | .skp _ => .SKP
  | .sknp _ => .SKNP
  | .gdt _ => .GDT
  | .wkey _ => .WKEY
  | .sdt _ => .SDT
  | .sst _ => .SST
  | .adi _ => .ADI
  | .font _ => .FONT
  | .bcd _ => .BCD
  | .stm _ => .STM
  | .ldm _ => .LDM

/-- The operand values of an instruction as a disassembler prints them: SHR and SHL show their Y field only when it
is not 0 (R83). -/
def Instr.operands : Instr → List Nat
  | .cls | .ret => []
  | .jp a | .call a | .seti a | .jpv0 a => [a.toNat]
  | .sei x k | .snei x k | .ldi x k | .addi x k | .rnd x k => [x.toNat, k.toNat]
  | .ser x y | .mov x y | .or x y | .and x y | .xor x y | .add x y | .sub x y | .sner x y => [x.toNat, y.toNat]
  | .shr x y | .shl x y => if y = 0 then [x.toNat] else [x.toNat, y.toNat]
  | .drw x y n => [x.toNat, y.toNat, n.toNat]
  | .skp x | .sknp x | .gdt x | .wkey x | .sdt x | .sst x | .adi x | .font x | .bcd x | .stm x | .ldm x => [x.toNat]

/-- Disassembly (R83). -/
def Instr.toLine (i : Instr) : SourceLine := { mnemonic := i.mnemonic, operands := i.operands }

/-- An instruction is well-formed when its written form passes the check of R82. Every term of `Instr` is (its
field types are the widths of R71); `Laws.Shape` proves it constructor by constructor. -/
def Instr.WellFormed (i : Instr) : Prop := i.toLine.wellFormed = true

end Sys2Proof
end

