-- ==== Sys2Proof/Decode.lean ====
section
/-! DEFINITION. The decoder and the encoder (spec/30_encoding.md rules R70 to R79), the opcode table as data (R77,
R78) and the byte form of a word (spec/20_memory.md rule R50). Decoding is total: every word is one of the 33
instructions or an unknown opcode. -/

namespace Sys2Proof

/-- T = op[15:12], the family (R71). -/
def fieldT (op : Word) : Nibble := op.extractLsb' 12 4

/-- X = op[11:8] (R71). -/
def fieldX (op : Word) : Nibble := op.extractLsb' 8 4

/-- Y = op[7:4] (R71). -/
def fieldY (op : Word) : Nibble := op.extractLsb' 4 4

/-- N = op[3:0] (R71). -/
def fieldN (op : Word) : Nibble := op.extractLsb' 0 4

/-- NN = op[7:0] (R71). -/
def fieldNN (op : Word) : Byte := op.extractLsb' 0 8

/-- NNN = op[11:0] (R71). -/
def fieldNNN (op : Word) : Addr12 := op.extractLsb' 0 12

/-- Family 0: only 0x00E0 and 0x00EE exist (R74). -/
def decodeSystem (op : Word) : Option Instr :=
  if op = 0x00E0#16 then some .cls else if op = 0x00EE#16 then some .ret else none

/-- Family 8: the ALU instruction N selects (R74, R132). N = 7 is no row of the table: `unknownWord` in
Machine/Alu.lean says what that word does. -/
def decodeAlu (x y n : Nibble) : Option Instr :=
  if n = 0x0#4 then some (.mov x y)
  else if n = 0x1#4 then some (.or x y)
  else if n = 0x2#4 then some (.and x y)
  else if n = 0x3#4 then some (.xor x y)
  else if n = 0x4#4 then some (.add x y)
  else if n = 0x5#4 then some (.sub x y)
  else if n = 0x6#4 then some (.shr x y)
  else if n = 0xE#4 then some (.shl x y)
  else none

/-- Family E: the keypad skips (R74). -/
def decodeKey (x : Nibble) (nn : Byte) : Option Instr :=
  if nn = 0x9E#8 then some (.skp x) else if nn = 0xA1#8 then some (.sknp x) else none

/-- Family F: timers, key wait, I and memory (R74). -/
def decodeMisc (x : Nibble) (nn : Byte) : Option Instr :=
  if nn = 0x07#8 then some (.gdt x)
  else if nn = 0x0A#8 then some (.wkey x)
  else if nn = 0x15#8 then some (.sdt x)
  else if nn = 0x18#8 then some (.sst x)
  else if nn = 0x1E#8 then some (.adi x)
  else if nn = 0x29#8 then some (.font x)
  else if nn = 0x33#8 then some (.bcd x)
  else if nn = 0x55#8 then some (.stm x)
  else if nn = 0x65#8 then some (.ldm x)
  else none

/-- The decode algorithm of R74: the instruction of a word, none for an unknown opcode (R79). That 5XYn and 9XYn
with n not 0 are unknown is the spec's strict reading (92_eei_decisions D2; notes/assumptions/13.md). -/
def decodeWord (op : Word) : Option Instr :=
  let t := fieldT op
  if t = 0x0#4 then decodeSystem op
  else if t = 0x1#4 then some (.jp (fieldNNN op))
  else if t = 0x2#4 then some (.call (fieldNNN op))
  else if t = 0x3#4 then some (.sei (fieldX op) (fieldNN op))
  else if t = 0x4#4 then some (.snei (fieldX op) (fieldNN op))
  else if t = 0x5#4 then (if fieldN op = 0x0#4 then some (.ser (fieldX op) (fieldY op)) else none)
  else if t = 0x6#4 then some (.ldi (fieldX op) (fieldNN op))
  else if t = 0x7#4 then some (.addi (fieldX op) (fieldNN op))
  else if t = 0x8#4 then decodeAlu (fieldX op) (fieldY op) (fieldN op)
  else if t = 0x9#4 then (if fieldN op = 0x0#4 then some (.sner (fieldX op) (fieldY op)) else none)
  else if t = 0xA#4 then some (.seti (fieldNNN op))
  else if t = 0xB#4 then some (.jpv0 (fieldNNN op))
  else if t = 0xC#4 then some (.rnd (fieldX op) (fieldNN op))
  else if t = 0xD#4 then some (.drw (fieldX op) (fieldY op) (fieldN op))
  else if t = 0xE#4 then decodeKey (fieldX op) (fieldNN op)
  else decodeMisc (fieldX op) (fieldNN op)

/-- A word from its two bytes, the byte at the lower address first: opcode = (hi << 8) | lo (20_memory R50). -/
def wordOfBytes (hi lo : Byte) : Word := hi ++ lo

/-- The byte of a word stored at the lower address (20_memory R50). -/
def highByte (op : Word) : Byte := op.extractLsb' 8 8

/-- The byte of a word stored at the higher address (20_memory R50). -/
def lowByte (op : Word) : Byte := op.extractLsb' 0 8

/-- What decoding a run of bytes gives. -/
inductive Decoded where
  /-- an instruction and the bytes after it -/
  | instr (i : Instr) (rest : List Byte)
  /-- `UnknownOpcode(op)` (R79), with the whole word -/
  | unknownOpcode (op : Word)
  /-- fewer than two bytes: no word (R70) -/
  | truncated
  deriving DecidableEq, Repr

/-- The decoder on bytes: an instruction is always the first two (R70). -/
def decodeBytes : List Byte → Decoded
  | hi :: lo :: rest =>
    match decodeWord (wordOfBytes hi lo) with
    | some i => .instr i rest
    | none => .unknownOpcode (wordOfBytes hi lo)
  | _ => .truncated

/-- The word whose bits are w, of which the table gives nbits; the bits above are 0. -/
def tableWord (nbits w : Nat) : Word := BitVec.ofNat 16 (w % 2 ^ nbits)

/-- The instruction the decoder reads from the word numbered as spec/opcode_table.json numbers it (bit 0 the least
significant bit of the one 16-bit word), laid out high byte first. -/
def decodeTableWord (nbits w : Nat) : Option Instr :=
  match decodeBytes [highByte (tableWord nbits w), lowByte (tableWord nbits w)] with
  | .instr i _ => some i
  | .unknownOpcode _ => none
  | .truncated => none

/-- Format A: T, NNN (R73). -/
def formatA (t : Nibble) (nnn : Addr12) : Word := t ++ nnn

/-- Format I: T, X, NN (R73). -/
def formatI (t x : Nibble) (nn : Byte) : Word := t ++ x ++ nn

/-- Formats R and D: T, X, Y, and a last digit that is a sub-opcode or N (R73). -/
def formatR (t x y n : Nibble) : Word := t ++ x ++ y ++ n

/-- The word of an instruction (R73, R78). Format X is format I with a literal low byte. -/
def encode : Instr → Word
  | .cls => 0x00E0#16
  | .ret => 0x00EE#16
  | .jp nnn => formatA 0x1#4 nnn
  | .call nnn => formatA 0x2#4 nnn
  | .sei x nn => formatI 0x3#4 x nn
  | .snei x nn => formatI 0x4#4 x nn
  | .ser x y => formatR 0x5#4 x y 0x0#4
  | .ldi x nn => formatI 0x6#4 x nn
  | .addi x nn => formatI 0x7#4 x nn
  | .mov x y => formatR 0x8#4 x y 0x0#4
  | .or x y => formatR 0x8#4 x y 0x1#4
  | .and x y => formatR 0x8#4 x y 0x2#4
  | .xor x y => formatR 0x8#4 x y 0x3#4
  | .add x y => formatR 0x8#4 x y 0x4#4
  | .sub x y => formatR 0x8#4 x y 0x5#4
  | .shr x y => formatR 0x8#4 x y 0x6#4
  | .shl x y => formatR 0x8#4 x y 0xE#4
  | .sner x y => formatR 0x9#4 x y 0x0#4
  | .seti nnn => formatA 0xA#4 nnn
  | .jpv0 nnn => formatA 0xB#4 nnn
  | .rnd x nn => formatI 0xC#4 x nn
  | .drw x y n => formatR 0xD#4 x y n
  | .skp x => formatI 0xE#4 x 0x9E#8
  | .sknp x => formatI 0xE#4 x 0xA1#8
  | .gdt x => formatI 0xF#4 x 0x07#8
  | .wkey x => formatI 0xF#4 x 0x0A#8
  | .sdt x => formatI 0xF#4 x 0x15#8
  | .sst x => formatI 0xF#4 x 0x18#8
  | .adi x => formatI 0xF#4 x 0x1E#8
  | .font x => formatI 0xF#4 x 0x29#8
  | .bcd x => formatI 0xF#4 x 0x33#8
  | .stm x => formatI 0xF#4 x 0x55#8
  | .ldm x => formatI 0xF#4 x 0x65#8

/-- The two bytes of an instruction as memory holds them, high byte first (R70). -/
def encodeBytes (i : Instr) : List Byte := [highByte (encode i), lowByte (encode i)]

/-- The (mask, match) pair of each row of the instruction list (R77, R78). -/
def Mnemonic.maskMatch : Mnemonic → Word × Word
  | .CLS => (0xFFFF, 0x00E0)
  | .RET => (0xFFFF, 0x00EE)
  | .JP => (0xF000, 0x1000)
  | .CALL => (0xF000, 0x2000)
  | .SEI => (0xF000, 0x3000)
  | .SNEI => (0xF000, 0x4000)
  | .SER => (0xF00F, 0x5000)
  | .LDI => (0xF000, 0x6000)
  | .ADDI => (0xF000, 0x7000)
  | .MOV => (0xF00F, 0x8000)
  | .OR => (0xF00F, 0x8001)
  | .AND => (0xF00F, 0x8002)
  | .XOR => (0xF00F, 0x8003)
  | .ADD => (0xF00F, 0x8004)
  | .SUB => (0xF00F, 0x8005)
  | .SHR => (0xF00F, 0x8006)
  | .SHL => (0xF00F, 0x800E)
  | .SNER => (0xF00F, 0x9000)
  | .SETI => (0xF000, 0xA000)
  | .JPV0 => (0xF000, 0xB000)
  | .RND => (0xF000, 0xC000)
  | .DRW => (0xF000, 0xD000)
  | .SKP => (0xF0FF, 0xE09E)
  | .SKNP => (0xF0FF, 0xE0A1)
  | .GDT => (0xF0FF, 0xF007)
  | .WKEY => (0xF0FF, 0xF00A)
  | .SDT => (0xF0FF, 0xF015)
  | .SST => (0xF0FF, 0xF018)
  | .ADI => (0xF0FF, 0xF01E)
  | .FONT => (0xF0FF, 0xF029)
  | .BCD => (0xF0FF, 0xF033)
  | .STM => (0xF0FF, 0xF055)
  | .LDM => (0xF0FF, 0xF065)

/-- `op` matches the row of a mnemonic (R77). -/
def Mnemonic.matches (m : Mnemonic) (op : Word) : Bool := op &&& m.maskMatch.1 == m.maskMatch.2

/-- All rows, in the order of R78. -/
def allMnemonics : List Mnemonic :=
  [.CLS, .RET, .JP, .CALL, .SEI, .SNEI, .SER, .LDI, .ADDI, .MOV, .OR, .AND, .XOR, .ADD, .SUB, .SHR, .SHL]
  ++ [.SNER, .SETI, .JPV0, .RND, .DRW, .SKP, .SKNP, .GDT, .WKEY, .SDT, .SST, .ADI, .FONT, .BCD, .STM, .LDM]

end Sys2Proof
end

