-- ==== Sys2Proof/Machine/Params.lean ====
section
/-! DEFINITION. The values of the open parameters (spec/00_scope.md rule R7), each the default that
spec/92_eei_decisions.md decides. They are fixed per engine, not per step (70_reset R249). A meaning that depends on
one reads it here, and models both values of every switch. -/

namespace Sys2Proof.Machine

/-- `FONT_DATA`, glyphs 0 to 7: the conventional table of 10_state R36, from general knowledge (92_eei_decisions D11). PRESUMED,
unsafe: notes/assumptions/1.md. -/
def Params.fontLow : List Byte :=
  [0xF0, 0x90, 0x90, 0x90, 0xF0,  0x20, 0x60, 0x20, 0x20, 0x70,  0xF0, 0x10, 0xF0, 0x80, 0xF0,  0xF0, 0x10, 0xF0, 0x10, 0xF0]
  ++ [0x90, 0x90, 0xF0, 0x10, 0x10,  0xF0, 0x80, 0xF0, 0x10, 0xF0,  0xF0, 0x80, 0xF0, 0x90, 0xF0,  0xF0, 0x10, 0x20, 0x40, 0x40]

/-- `FONT_DATA`, glyphs 8 to F (10_state R36). PRESUMED, unsafe: notes/assumptions/1.md. -/
def Params.fontHigh : List Byte :=
  [0xF0, 0x90, 0xF0, 0x90, 0xF0,  0xF0, 0x90, 0xF0, 0x10, 0xF0,  0xF0, 0x90, 0xF0, 0x90, 0x90,  0xE0, 0x90, 0xE0, 0x90, 0xE0]
  ++ [0xF0, 0x80, 0x80, 0x80, 0xF0,  0xE0, 0x90, 0x90, 0x90, 0xE0,  0xF0, 0x80, 0xF0, 0x80, 0xF0,  0xF0, 0x80, 0xF0, 0x80, 0x80]

/-- `FONT_DATA`: 16 glyphs of 5 bytes, glyph g at 5*g (10_state R36). -/
def Params.fontData : List Byte := Params.fontLow ++ Params.fontHigh

/-- `MEM_INIT`: what memory outside the font holds after reset (92_eei_decisions D9). DESIGN CHOICE, unsafe:
notes/assumptions/2.md. -/
def Params.memInit (_ : Nat) : Byte := 0x00

/-- `SPRITE_MSB_LEFT`: bit 7 of a sprite byte is column 0 (92_eei_decisions D10). PRESUMED, unsafe:
notes/assumptions/3.md. -/
def Params.spriteMsbLeft : Bool := true

/-- `HAS_SUBN`: whether 8XY7 is an instruction (92_eei_decisions D1). DESIGN CHOICE, safe: notes/assumptions/5.md. -/
def Params.hasSubn : Bool := false

/-- `KEY_INDEX_POLICY` (92_eei_decisions D4). DESIGN CHOICE, safe: notes/assumptions/6.md. -/
def Params.keyIndexPolicy : Config.KeyIndexPolicy := .fault

/-- `VF_ORDER` (92_eei_decisions D5). DESIGN CHOICE, unsafe: notes/assumptions/7.md. -/
def Params.vfOrder : Config.VfOrder := .flagLast

end Sys2Proof.Machine
end

