-- ==== Sys2Proof/Machine/State.lean ====
section
/-! DEFINITION. The state of the engine (spec/10_state.md rule R20), the ways a STEP can stop, and the state after
RESET (rule R39). -/

namespace Sys2Proof.Machine

/-- The two states of the key-wait machine (10_state R32). It is an execution state, no privilege mode (60_exceptions
R215). -/
inductive Mode where
  | running
  | awaitingKey
  deriving DecidableEq, Repr

/-- 32 rows of 64 pixels, true = set; row y, column x is `fb[y][x]` (10_state R34). -/
abbrev Framebuffer := Vector (Vector Bool 64) 32

/-- Why a STEP returns a fault (60_exceptions R201). The state is then as it was before the STEP (R207). -/
inductive Fault where
  /-- Raised by decode for every word of 30_encoding R79, with the whole word (R202). Safe for the words the spec
  decides to be unknown (D1, D2): an implementation that runs them goes on where the model stops. -/
  | unknownOpcode (op : Word)
  /-- Raised by the fetch and by DXYN, FX33, FX55, FX65 when an address is 4096 or more, with the lowest such address
  (20_memory R55, R56). Stopping is the spec's own; the payload's value is its decision D13 (unsafe to rely on,
  notes/assumptions/9.md). -/
  | outOfBoundsAccess (addr : Nat)
  /-- Raised by 2NNN at sp = 16 (R203). Safe: the spec's decision D3. -/
  | stackOverflow
  /-- Raised by 00EE at sp = 0 (R204). Safe: the spec's decision D3. -/
  | stackUnderflow
  /-- Raised by EX9E and EXA1 when V[X] > 15, with V[X] (R205). Safe: the spec's decision D4. -/
  | keyIndexOutOfRange (v : Byte)
  deriving DecidableEq, Repr

/-- What the model gives no meaning to. No arm of `exec` raises one: every instruction of the table has its meaning. -/
inductive Refusal where
  /-- An instruction without a meaning, by its mnemonic; raised only by an arm of `exec`. Safe: the model stops. -/
  | notModelled (mnemonic : String)
  deriving DecidableEq, Repr

/-- The complete state (10_state R20), and `draws`, the model's own. -/
structure State where
  /-- V0..VF; `v[15]` is VF (R21, R22) -/
  v : Vector Byte 16
  /-- the index register (R23) -/
  i : Word
  /-- the program counter (R24) -/
  pc : Word
  /-- the call stack's slots (R28) -/
  stack : Vector Word 16
  /-- the number of occupied slots, 0..16 (R29) -/
  sp : Fin 17
  /-- the delay timer (R30) -/
  dt : Byte
  /-- the sound timer (R31) -/
  st : Byte
  /-- Running or AwaitingKey (R32) -/
  mode : Mode
  /-- the X field of the FX0A that started the wait (R33) -/
  waitX : Nibble
  /-- the framebuffer (R34) -/
  fb : Framebuffer
  /-- the keypad, true = pressed (R35) -/
  key : Vector Bool 16
  /-- memory (R36, R37): (address, byte) cells in the canonical form `Memory.wf` of Machine/Ops.lean -/
  mem : List Host.Cell
  /-- THE MODEL'S OWN FIELD: how many draws CXNN has made; the next one is `Config.randomDraw draws` (41_alu R133;
  notes/assumptions/4.md) -/
  draws : Nat
  deriving DecidableEq, Repr

/-- The state after RESET (10_state R39; 70_reset R230). The source states V, I, pc, sp, the framebuffer and the font;
the other values are the spec's decisions D9 and D14 (notes/assumptions/2.md and 8.md). Memory lists nothing: every
address reads as its reset content. -/
def State.reset : State where
  v := Vector.replicate 16 0x00
  i := 0x0000
  pc := 0x0200
  stack := Vector.replicate 16 0x0000
  sp := 0
  dt := 0x00
  st := 0x00
  mode := .running
  waitX := 0x0
  fb := Vector.replicate 32 (Vector.replicate 64 false)
  key := Vector.replicate 16 false
  mem := []
  draws := 0

end Sys2Proof.Machine
end

