-- ==== Sys2Proof/Machine/Ops.lean ====
section
/-! DEFINITION. The named operations over registers, program counter, call stack, memory and framebuffer, the fetch,
and the one way a fault is delivered. -/

namespace Sys2Proof.Machine

/-- The outcome of a STEP of this machine. -/
abbrev Result := Host.Outcome State Fault Refusal

/-! ## Faults -/

/-- Taking a fault (60_exceptions R207): it transfers no control inside the machine (no vector, no saved register, no
mode change), the STEP returns it, and the state stays as it was before the STEP. There is nothing to return from:
the set has no return-from-trap instruction (R209). -/
def raise (f : Fault) : Result := .fault f

/-- The bounds check of an access to `n` bytes from `base`, on unbounded integers and for the whole range at once:
"every address < 4096", otherwise OutOfBoundsAccess with the lowest address at or above 4096 the access would touch
(20_memory R55, R56). An access to no byte is not checked (43_display R162). The payload is the spec's decision D13
(notes/assumptions/9.md). -/
def accessFault (base n : Nat) : Option Fault :=
  if 0 < n ∧ base + n > Config.memSize then some (.outOfBoundsAccess (max base Config.memSize)) else none

/-! ## General registers (10_state R21) -/

/-- `V[x]`. -/
def State.getV (s : State) (x : Nibble) : Byte := s.v[x.toNat]'x.isLt

/-- `V[x] <- b`. No register is hard-wired. -/
def State.setV (s : State) (x : Nibble) (b : Byte) : State := { s with v := s.v.set x.toNat b x.isLt }

/-- The number of VF (10_state R22). -/
def vF : Nibble := 0xF#4

/-! ## Program counter (10_state R25) -/

/-- `pc <- pc + n`. -/
def State.advance (s : State) (n : Nat) : State := { s with pc := s.pc + BitVec.ofNat 16 n }

/-- The instruction is done and pc moves past its word. -/
def finish (s : State) : Result := .next (s.advance Config.instrBytes)

/-! ## Call stack (10_state R28, R29) -/

/-- The push of 2NNN: slot `sp` takes the word and `sp` counts it; no room at sp = 16. -/
def State.push (s : State) (w : Word) : Option State :=
  if h : s.sp.val < 16 then some { s with stack := s.stack.set s.sp.val w h, sp := ⟨s.sp.val + 1, by omega⟩ } else none

/-- The pop of 00EE: the most recently pushed slot, and the state with one slot fewer occupied; nothing at sp = 0. The
slot keeps its value (40_flow R100). -/
def State.pop (s : State) : Option (Word × State) :=
  if h : 0 < s.sp.val then
    some (s.stack[s.sp.val - 1]'(by omega), { s with sp := ⟨s.sp.val - 1, by omega⟩ })
  else none

/-! ## Memory (10_state R36, R37; 20_memory R51, R53) -/

/-- What an address holds after reset, and so what an unlisted address reads as: the font at 0x000..0x04F, `MEM_INIT`
above it (10_state R39; notes/assumptions/1.md, 2.md and 25.md). -/
def resetByte (a : Nat) : Byte :=
  match Params.fontData[a]? with
  | some b => b
  | none => Params.memInit a

/-- The byte at an address. -/
def Memory.read : List Host.Cell → Nat → Byte
  | [], a => resetByte a
  | c :: m, a => if c.1 = a then c.2 else Memory.read m a

/-- The cell (a, b) put at its place in a list of rising addresses. -/
def Memory.insert : List Host.Cell → Nat → Byte → List Host.Cell
  | [], a, b => [(a, b)]
  | c :: m, a, b =>
    if a < c.1 then (a, b) :: c :: m else if c.1 = a then (a, b) :: m else c :: Memory.insert m a b

/-- The list without the cell of an address. -/
def Memory.erase : List Host.Cell → Nat → List Host.Cell
  | [], _ => []
  | c :: m, a => if c.1 = a then m else c :: Memory.erase m a

/-- `mem[a] <- b`, keeping the canonical form: the value an unlisted address reads as is not listed. -/
def Memory.write (m : List Host.Cell) (a : Nat) (b : Byte) : List Host.Cell :=
  if b = resetByte a then Memory.erase m a else Memory.insert m a b

/-- The bytes written one after another from an address upward. -/
def Memory.writeBytes (m : List Host.Cell) (a : Nat) : List Byte → List Host.Cell
  | [] => m
  | b :: bs => Memory.writeBytes (Memory.write m a b) (a + 1) bs

/-- `n` bytes read from an address upward. -/
def Memory.readBytes (m : List Host.Cell) (a : Nat) : Nat → List Byte
  | 0 => []
  | n + 1 => Memory.read m a :: Memory.readBytes m (a + 1) n

/-- The canonical form: addresses strictly rising, each below 4096, and no cell equal to what its address reads as
when it is not listed. -/
abbrev Memory.wf (m : List Host.Cell) : Prop :=
  m.Pairwise (fun c d => c.1 < d.1) ∧ ∀ c ∈ m, c.1 < Config.memSize ∧ c.2 ≠ resetByte c.1

/-- `MemRead(a, 1)`. -/
def State.readByte (s : State) (a : Nat) : Byte := Memory.read s.mem a

/-- The state with the bytes written from an address upward. -/
def State.writeBytes (s : State) (a : Nat) (bs : List Byte) : State := { s with mem := Memory.writeBytes s.mem a bs }

/-! ## Fetch (20_memory R50, R55) -/

/-- The bounds check of the fetch at pc. -/
def fetchFault (s : State) : Option Fault := accessFault s.pc.toNat Config.instrBytes

/-- `MemRead(pc, 2)`: the byte at pc is the high one. -/
def fetchWord (s : State) : Word := wordOfBytes (s.readByte s.pc.toNat) (s.readByte (s.pc.toNat + 1))

/-! ## Framebuffer (10_state R34) -/

/-- `fb[x, y]`. -/
def Framebuffer.pixel (fb : Framebuffer) (x : Fin 64) (y : Fin 32) : Bool := fb[y.val][x.val]

/-- `fb[x, y] <- b`. -/
def Framebuffer.setPixel (fb : Framebuffer) (x : Fin 64) (y : Fin 32) (b : Bool) : Framebuffer :=
  fb.set y.val (fb[y.val].set x.val b)

/-- The framebuffer with every pixel 0 (43_display R160). -/
def Framebuffer.blank : Framebuffer := Vector.replicate 32 (Vector.replicate 64 false)

/-! ## Where withFetchWord puts an instruction -/

/-- The state with a word where the next STEP fetches: mode Running (in AwaitingKey no fetch happens), pc as it stands
if two bytes can be fetched there and else the program base, and the word's bytes at pc, high byte first
(notes/assumptions/24.md). -/
def State.placeWord (s : State) (op : Word) : State :=
  let pc := if s.pc.toNat + Config.instrBytes ≤ Config.memSize then s.pc else BitVec.ofNat 16 Config.progBase
  { s with mode := .running, pc := pc, mem := Memory.writeBytes s.mem pc.toNat [highByte op, lowByte op] }

end Sys2Proof.Machine
end

