-- ==== Sys2Proof/Machine/Operands.lean ====
section
/-! DEFINITION. The operand forms (spec/30_encoding.md rule R72; 42_index_memory R147; 43_display R161; 44_keypad_timers
R170): immediates zero-extended to 16 bits, the byte range at I, a key index in a register, a sprite. -/

namespace Sys2Proof.Machine

/-- `zext_16(NNN)` (R72): every target is absolute. -/
def zext16 (nnn : Addr12) : Word := nnn.setWidth 16

/-- An access to the `n` bytes at I (R147): the whole range is checked before anything is read or written (20_memory
R56), then the rest of the instruction runs. -/
def atI (s : State) (n : Nat) (body : Result) : Result :=
  match accessFault s.i.toNat n with
  | some f => raise f
  | none => body

/-- The registers V[0] .. V[x], the operands of FX55 (R145). -/
def State.regsTo (s : State) (x : Nibble) : List Byte := s.v.toList.take (x.toNat + 1)

/-- `V[k] <- bs[k]` for every k the list has, the registers above kept (R146). -/
def State.setRegs (s : State) (bs : List Byte) : State := { s with v := s.v.mapFinIdx fun k old _ => bs.getD k old }

/-- `I <- I + x + 1`, the post-increment of FX55 and FX65 (R145, R146). -/
def State.postIncI (s : State) (x : Nibble) : State := { s with i := s.i + BitVec.ofNat 16 (x.toNat + 1) }

/-- The key a register value names (R170): the value itself up to 15; above it, by `KEY_INDEX_POLICY`, a fault or the
value mod 16 (92_eei_decisions D4; notes/assumptions/6.md). -/
def keyIndex (policy : Config.KeyIndexPolicy) (k : Byte) : Except Fault Nibble :=
  if k.toNat ≤ 15 then .ok (k.setWidth 4)
  else match policy with
    | .fault => .error (.keyIndexOutOfRange k)
    | .mask => .ok (k.setWidth 4)

/-- `key[k]`: the level at this moment (10_state R35). -/
def State.keySet (s : State) (k : Nibble) : Bool := s.key[k.toNat]'k.isLt

/-- The least key that is set (R173). -/
def State.leastKey (s : State) : Option Nibble :=
  (s.key.toList.findIdx? id).map (BitVec.ofNat 4)

/-- Whether a sprite byte has a pixel in a column 0..7 (43_display R161): bit 7 - col when bit 7 is column 0, else bit
col. -/
def spriteBit (msbLeft : Bool) (b : Byte) (col : Nat) : Bool :=
  if msbLeft then b.getLsbD (7 - col) else b.getLsbD col

/-- The pixels one sprite byte covers, each coordinate wrapped on its own (R161). -/
def rowPixels (msbLeft : Bool) (b : Byte) (x0 y : Nat) : List (Fin 64 × Fin 32) :=
  ((List.range 8).filter (spriteBit msbLeft b)).map fun col => (Fin.ofNat 64 (x0 + col), Fin.ofNat 32 y)

/-- The pixels a sprite covers, row by row from y0 (R161). -/
def spritePixels (msbLeft : Bool) (x0 : Nat) : Nat → List Byte → List (Fin 64 × Fin 32)
  | _, [] => []
  | y, b :: bs => rowPixels msbLeft b x0 y ++ spritePixels msbLeft x0 (y + 1) bs

end Sys2Proof.Machine
end

