-- ==== Sys2Proof/Machine/Flags.lean ====
section
/-! DEFINITION. The flag computations (spec/10_state.md rule R27; 41_alu R134): every flag is a function of the operands
before truncation, 0 or 1 in an 8-bit register, and VF is where it is written. -/

namespace Sys2Proof.Machine

/-- 0x01 or 0x00 (R27). -/
def flagByte (c : Bool) : Byte := if c then 0x01 else 0x00

/-- 8XY4: 1 iff the sum exceeds 255 (41_alu R126). -/
def carryFlag (a b : Byte) : Byte := flagByte (decide (a.toNat + b.toNat > 255))

/-- 8XY5: 1 iff there is no borrow, minuend a (41_alu R127). -/
def noBorrowFlag (a b : Byte) : Byte := flagByte (decide (a.toNat ≥ b.toNat))

/-- 8XY6: the bit a right shift drops, bit 0 (41_alu R128). -/
def shiftedOutRight (a : Byte) : Byte := flagByte (a.getLsbD 0)

/-- 8XYE: the bit a left shift drops, bit 7 (41_alu R129). -/
def shiftedOutLeft (a : Byte) : Byte := flagByte (a.getLsbD 7)

/-- FX1E: 1 iff the unreduced sum exceeds 0xFFF (42_index_memory R141). -/
def indexOverflowFlag (i : Word) (b : Byte) : Byte := flagByte (decide (i.toNat + b.toNat > 0x0FFF))

/-- `V[0xF] <- f`. -/
def State.setVF (s : State) (f : Byte) : State := s.setV vF f

/-- The two register writes of a flag-writing ALU instruction (41_alu R131): result to V[x], flag to VF, in the order
`VF_ORDER` fixes (92_eei_decisions D5; notes/assumptions/7.md). The orders differ only at x = F. -/
def State.setResultFlag (s : State) (order : Config.VfOrder) (x : Nibble) (result flag : Byte) : State :=
  match order with
  | .flagLast => (s.setV x result).setVF flag
  | .resultLast => (s.setVF flag).setV x result

/-- One toggle of DXYN (43_display R161): the pixel is XORed with 1, and a pixel that was 1 is a collision. -/
def togglePixel (acc : Framebuffer × Bool) (p : Fin 64 × Fin 32) : Framebuffer × Bool :=
  (acc.1.setPixel p.1 p.2 (!acc.1.pixel p.1 p.2), acc.2 || acc.1.pixel p.1 p.2)

/-- The draw loop of DXYN over the covered pixels in order: the framebuffer and the collision (43_display R161). -/
def drawPixels (fb : Framebuffer) (ps : List (Fin 64 × Fin 32)) : Framebuffer × Bool :=
  ps.foldl togglePixel (fb, false)

end Sys2Proof.Machine
end

