-- ==== Sys2Proof/Machine/Alu.lean ====
section
/-! DEFINITION. Register loads, arithmetic, logic, shifts, random (spec/41_alu.md). Every operand is read before any
register is written (R131; 00_scope R12); no instruction here can fault after its decode. -/

namespace Sys2Proof.Machine

/-- `V[x] <- b`, then past the word: the shape of every instruction here that writes no flag. -/
def loadV (x : Nibble) (b : Byte) (s : State) : Result := finish (s.setV x b)

/-- Result and flag, then past the word: the shape of the flag-writing ones (R131). -/
def loadVFlag (x : Nibble) (result flag : Byte) (s : State) : Result :=
  finish (s.setResultFlag Params.vfOrder x result flag)

/-- 6XNN (R120). -/
def execLdi (x : Nibble) (nn : Byte) (s : State) : Result := loadV x nn s

/-- 7XNN: modulo 256, VF not written (R121; D20, notes/assumptions/17.md). -/
def execAddi (x : Nibble) (nn : Byte) (s : State) : Result :=
  loadV x (BitVec.ofNat 8 ((s.getV x).toNat + nn.toNat)) s

/-- 8XY0 (R122). -/
def execMov (x y : Nibble) (s : State) : Result := loadV x (s.getV y) s

/-- 8XY1 (R123; VF not written, D20, notes/assumptions/17.md). -/
def execOr (x y : Nibble) (s : State) : Result := loadV x (s.getV x ||| s.getV y) s

/-- 8XY2 (R124; VF not written, D20, notes/assumptions/17.md). -/
def execAnd (x y : Nibble) (s : State) : Result := loadV x (s.getV x &&& s.getV y) s

/-- 8XY3 (R125; VF not written, D20, notes/assumptions/17.md). -/
def execXor (x y : Nibble) (s : State) : Result := loadV x (s.getV x ^^^ s.getV y) s

/-- 8XY4 (R126). -/
def execAdd (x y : Nibble) (s : State) : Result :=
  loadVFlag x (BitVec.ofNat 8 ((s.getV x).toNat + (s.getV y).toNat)) (carryFlag (s.getV x) (s.getV y)) s

/-- 8XY5 (R127). -/
def execSub (x y : Nibble) (s : State) : Result :=
  loadVFlag x (s.getV x - s.getV y) (noBorrowFlag (s.getV x) (s.getV y)) s

/-- 8XY6: V[x] div 2; Y is ignored (R128; 30_encoding R76). -/
def execShr (x _y : Nibble) (s : State) : Result := loadVFlag x (s.getV x >>> 1) (shiftedOutRight (s.getV x)) s

/-- 8XYE: 2 * V[x] mod 256; Y is ignored (R129; 30_encoding R76). -/
def execShl (x _y : Nibble) (s : State) : Result := loadVFlag x (s.getV x <<< 1) (shiftedOutLeft (s.getV x)) s

/-- CXNN: the next free draw, masked (R133; D12, notes/assumptions/4.md). The spec leaves open whether two engines, or two
runs, agree in their draws; here any two states with the same count of draws draw the same byte. DESIGN CHOICE, unsafe
where two runs are compared: notes/assumptions/4.md. -/
def execRnd (x : Nibble) (nn : Byte) (s : State) : Result :=
  loadV x (Config.randomDraw s.draws &&& nn) { s with draws := s.draws + 1 }

/-- 8XY7 where `HAS_SUBN` makes it an instruction: V[y] - V[x], VF = no borrow (R130; D1, notes/assumptions/5.md). It is
no row of the opcode table, so no constructor of `Instr`. -/
def execSubn (x y : Nibble) (s : State) : Result :=
  loadVFlag x (s.getV y - s.getV x) (noBorrowFlag (s.getV y) (s.getV x)) s

/-- What a word does that is none of the 33 instructions: UnknownOpcode with the whole word (60_exceptions R202), except
that 8XY7 is SUBN while `HAS_SUBN` is true (R130, R132). -/
def unknownWord (hasSubn : Bool) (op : Word) (s : State) : Result :=
  if hasSubn ∧ fieldT op = 0x8#4 ∧ fieldN op = 0x7#4 then execSubn (fieldX op) (fieldY op) s
  else raise (.unknownOpcode op)

end Sys2Proof.Machine
end

