-- ==== Sys2Proof/Machine/Display.lean ====
section
/-! DEFINITION. The display instructions (spec/43_display.md). -/

namespace Sys2Proof.Machine

/-- `fb <- fb'`. -/
def State.setFb (s : State) (fb : Framebuffer) : State := { s with fb := fb }

/-- 00E0: every pixel 0; VF not written (R160; D20, notes/assumptions/17.md). -/
def execCls (s : State) : Result := finish (s.setFb Framebuffer.blank)

/-- The pixels DXYN covers in a state: the N bytes at I drawn from column V[x], row V[y] (R161). -/
def drawnPixels (msbLeft : Bool) (x y n : Nibble) (s : State) : List (Fin 64 × Fin 32) :=
  spritePixels msbLeft (s.getV x).toNat (s.getV y).toNat (Memory.readBytes s.mem s.i.toNat n.toNat)

/-- DXYN: XOR the sprite, VF <- collision, the coordinates being read before VF is written; N = 0 reads and checks
nothing and clears VF (R161, R162; D19, notes/assumptions/16.md; bit order D10, notes/assumptions/3.md). -/
def execDrw (x y n : Nibble) (s : State) : Result :=
  let r := drawPixels s.fb (drawnPixels Params.spriteMsbLeft x y n s)
  atI s n.toNat (finish ((s.setFb r.1).setVF (flagByte r.2)))

end Sys2Proof.Machine
end

