-- ==== Sys2Proof/Machine/Flow.lean ====
section
/-! DEFINITION. Control transfer (spec/40_flow.md). No target is checked or masked: a pc out of bounds is the next
fetch's fault (10_state R26; D7, notes/assumptions/11.md). -/

namespace Sys2Proof.Machine

/-- `pc <- target`. -/
def jumpTo (target : Word) (s : State) : Result := .next { s with pc := target }

/-- pc + 4 if the condition holds, else pc + 2; the skipped word is not fetched (R104, R109). -/
def skipIf (c : Bool) (s : State) : Result := .next (s.advance (if c then 4 else 2))

/-- 00EE: the most recently pushed slot plus 2; StackUnderflow at sp = 0 (R100; D3, notes/assumptions/12.md). -/
def execRet (s : State) : Result :=
  match s.pop with
  | some (w, s') => jumpTo (w + 2) s'
  | none => raise .stackUnderflow

/-- 1NNN (R101). -/
def execJp (nnn : Addr12) (s : State) : Result := jumpTo (zext16 nnn) s

/-- 2NNN: pushes the address of the call itself; StackOverflow at sp = 16 (R102; D3, notes/assumptions/12.md). -/
def execCall (nnn : Addr12) (s : State) : Result :=
  match s.push s.pc with
  | some s' => jumpTo (zext16 nnn) s'
  | none => raise .stackOverflow

/-- BNNN: NNN + V[0], always register 0, not reduced (R103; D7). -/
def execJpv0 (nnn : Addr12) (s : State) : Result := jumpTo (zext16 nnn + (s.getV 0x0#4).setWidth 16) s

/-- 3XNN (R104). -/
def execSei (x : Nibble) (nn : Byte) (s : State) : Result := skipIf (s.getV x == nn) s

/-- 4XNN (R105). -/
def execSnei (x : Nibble) (nn : Byte) (s : State) : Result := skipIf (s.getV x != nn) s

/-- 5XY0 (R106). -/
def execSer (x y : Nibble) (s : State) : Result := skipIf (s.getV x == s.getV y) s

/-- 9XY0 (R107). -/
def execSner (x y : Nibble) (s : State) : Result := skipIf (s.getV x != s.getV y) s

end Sys2Proof.Machine
end

