-- ==== Sys2Proof/Machine/Index.lean ====
section
/-! DEFINITION. The index register and the memory instructions (spec/42_index_memory.md). The only data addressing is
through I, bounds-checked as a whole range before anything is read or written (R147; 20_memory R56). -/

namespace Sys2Proof.Machine

/-- `I <- w`. -/
def State.setI (s : State) (w : Word) : State := { s with i := w }

/-- ANNN (R140). -/
def execSeti (nnn : Addr12) (s : State) : Result := finish (s.setI (zext16 nnn))

/-- FX1E: the sum mod 65536; VF from the unreduced sum, old VF being the addend when x = F (R141; D6,
notes/assumptions/10.md). -/
def execAdi (x : Nibble) (s : State) : Result :=
  finish ((s.setI (BitVec.ofNat 16 (s.i.toNat + (s.getV x).toNat))).setVF (indexOverflowFlag s.i (s.getV x)))

/-- FX29: 5 * V[x], the whole of V[x] (R142). -/
def execFont (x : Nibble) (s : State) : Result :=
  finish (s.setI (BitVec.ofNat 16 ((s.getV x).toNat * Config.glyphBytes)))

/-- Hundreds, tens, units (R143, R144). -/
def bcdDigits (v : Byte) : List Byte :=
  [BitVec.ofNat 8 (v.toNat / 100), BitVec.ofNat 8 (v.toNat / 10 % 10), BitVec.ofNat 8 (v.toNat % 10)]

/-- FX33: the digits at I, I+1, I+2; I kept (R143). -/
def execBcd (x : Nibble) (s : State) : Result :=
  atI s 3 (finish (s.writeBytes s.i.toNat (bcdDigits (s.getV x))))

/-- FX55: V[0]..V[x] to I..I+x, then I <- I + x + 1 (R145). -/
def execStm (x : Nibble) (s : State) : Result :=
  atI s (x.toNat + 1) (finish ((s.writeBytes s.i.toNat (s.regsTo x)).postIncI x))

/-- FX65: V[0]..V[x] from I..I+x, then I <- I + x + 1 (R146). -/
def execLdm (x : Nibble) (s : State) : Result :=
  atI s (x.toNat + 1) (finish ((s.setRegs (Memory.readBytes s.mem s.i.toNat (x.toNat + 1))).postIncI x))

end Sys2Proof.Machine
end

