-- ==== Sys2Proof/Machine/Keypad.lean ====
section
/-! DEFINITION. Keypad and timer instructions and the key-wait state machine (spec/44_keypad_timers.md). -/

namespace Sys2Proof.Machine

/-- The keypad skips: the key V[x] names, or KeyIndexOutOfRange; skip when its level is `want` (R170, R171). -/
def skipOnKey (x : Nibble) (want : Bool) (s : State) : Result :=
  match keyIndex Params.keyIndexPolicy (s.getV x) with
  | .ok k => skipIf (s.keySet k == want) s
  | .error f => raise f

/-- EX9E (R170). -/
def execSkp (x : Nibble) (s : State) : Result := skipOnKey x true s

/-- EXA1 (R171). -/
def execSknp (x : Nibble) (s : State) : Result := skipOnKey x false s

/-- FX0A, the encounter step: X is latched, the mode becomes AwaitingKey, pc stays, the keypad is not looked at (R172;
D14, notes/assumptions/15.md). -/
def execWkey (x : Nibble) (s : State) : Result := .next { s with waitX := x, mode := .awaitingKey }

/-- The STEP while AwaitingKey: no fetch; the least set key goes to the latched register, pc moves on, the mode is
Running again; with no key set nothing changes (R173). -/
def waitStep (s : State) : Result :=
  match s.leastKey with
  | some k => finish ({ s with mode := .running }.setV s.waitX (k.setWidth 8))
  | none => .next s

/-- FX07: V[x] <- DT (R175; the timer's name, notes/assumptions/23.md). -/
def execGdt (x : Nibble) (s : State) : Result := finish (s.setV x s.dt)

/-- FX15: DT <- V[x] (R176; notes/assumptions/23.md). -/
def execSdt (x : Nibble) (s : State) : Result := finish { s with dt := s.getV x }

/-- FX18: ST <- V[x] (R177; notes/assumptions/23.md). -/
def execSst (x : Nibble) (s : State) : Result := finish { s with st := s.getV x }

end Sys2Proof.Machine
end

