-- ==== Sys2Proof/Machine/Step.lean ====
section
/-! DEFINITION. The STEP operation (spec/60_exceptions.md rule R200): while AwaitingKey the waiting step, else fetch,
decode, check and execute, in that order, so that the first fault met is the one reported (R208). -/

namespace Sys2Proof.Machine

/-- A STEP in Running mode: stages 1 to 4 of R200. -/
def runStep (s : State) : Host.Outcome State Fault Refusal :=
  match fetchFault s with
  | some f => raise f
  | none =>
    match decodeWord (fetchWord s) with
    | some i => exec i s
    | none => unknownWord Params.hasSubn (fetchWord s) s

/-- One STEP (R200). -/
def step (s : State) : Host.Outcome State Fault Refusal :=
  match s.mode with
  | .awaitingKey => waitStep s
  | .running => runStep s

/-- The state with the instruction of the given table word where the next STEP fetches it (notes/assumptions/24.md). -/
def State.withFetchWord (s : State) (nbits w : Nat) : State := s.placeWord (tableWord nbits w)

end Sys2Proof.Machine
end

