-- ==== Sys2Proof/Machine/HostOps.lean ====
section
/-! DEFINITION. The host's interface operations other than STEP (spec/00_scope.md rule R9; 70_reset_and_hazards R230 to
R244; 44_keypad_timers R179): atomic functions on the state, taken only between two STEPs (20_memory R59). -/

namespace Sys2Proof.Machine

/-- RESET: every piece of the spec's state at its reset value, at any point between STEPs (R230; D24). The model's own
count of draws goes on, so that a draw after RESET is fresh (notes/assumptions/19.md). -/
def State.hostReset (s : State) : State := { State.reset with draws := s.draws }

/-- LOAD: the bytes at 0x200 upward and nothing else; none (`LoadError`) for more than 3584, nothing then changed (R238,
R239; D18, notes/assumptions/18.md). -/
def State.load (s : State) (bs : List Byte) : Option State :=
  if bs.length > Config.progMax then none else some (s.writeBytes Config.progBase bs)

/-- A timer one lower, never below 0 (R179). -/
def countDown (t : Byte) : Byte := if t.toNat > 0 then t - 1 else t

/-- TICK: each timer on its own (R179). -/
def State.tick (s : State) : State := { s with dt := countDown s.dt, st := countDown s.st }

/-- SETKEY: the level of one key; it does not itself end a wait (R241). -/
def State.setKey (s : State) (k : Nibble) (pressed : Bool) : State := { s with key := s.key.set k.toNat pressed k.isLt }

/-- SNAPSHOT: the pixels (R243). -/
def State.snapshot (s : State) : Framebuffer := s.fb

/-- READ_DT (R244). -/
def State.readDt (s : State) : Byte := s.dt

/-- READ_ST (R244). -/
def State.readSt (s : State) : Byte := s.st

end Sys2Proof.Machine
end

