-- ==== Sys2Proof/Machine/Interface.lean ====
section
/-! DEFINITION. The eight interface operations in one form (spec/00_scope.md rule R9), what each returns, and a run as
a sequence of them (70_reset_and_hazards R247, R249). -/

namespace Sys2Proof.Machine

/-- What a STEP that does not fault reports (60_exceptions R200). -/
inductive StepReport where
  | executed
  | waitingForKey
  deriving DecidableEq, Repr

/-- The report of a STEP, read off the state it leaves: `WaitingForKey` exactly when that state is AwaitingKey
(44_keypad_timers R174; DEDUCED, notes/assumptions/20.md). -/
def State.report (s : State) : StepReport :=
  match s.mode with
  | .awaitingKey => .waitingForKey
  | .running => .executed

/-- The interface operations (00_scope R9). -/
inductive HostOp where
  | reset
  | load (bytes : List Byte)
  | step
  | tick
  | setKey (k : Nibble) (pressed : Bool)
  | snapshot
  | readDt
  | readSt
  deriving DecidableEq, Repr

/-- What an interface operation returns to its caller. -/
inductive Response where
  /-- RESET, TICK, SETKEY return nothing -/
  | done
  /-- LOAD succeeded -/
  | loaded
  /-- LOAD of more than 3584 bytes (60_exceptions R210) -/
  | loadError
  /-- STEP: `Executed` or `WaitingForKey` -/
  | stepped (r : StepReport)
  /-- STEP returned a fault (60_exceptions R207) -/
  | faulted (f : Fault)
  /-- STEP met something the model gives no meaning to -/
  | refused (r : Refusal)
  /-- SNAPSHOT -/
  | grid (fb : Framebuffer)
  /-- READ_DT, READ_ST -/
  | timer (t : Byte)
  deriving DecidableEq, Repr

/-- STEP as its caller sees it: a fault leaves the whole state as it was (60_exceptions R207). -/
def hostStep (s : State) : Response × State :=
  match step s with
  | .next t => (.stepped t.report, t)
  | .fault f => (.faulted f, s)
  | .refused r => (.refused r, s)

/-- LOAD as its caller sees it. -/
def hostLoad (bs : List Byte) (s : State) : Response × State :=
  match s.load bs with
  | some t => (.loaded, t)
  | none => (.loadError, s)

/-- One interface operation: what it returns and the state it leaves. -/
def HostOp.run (op : HostOp) (s : State) : Response × State :=
  match op with
  | .reset => (.done, s.hostReset)
  | .load bs => hostLoad bs s
  | .step => hostStep s
  | .tick => (.done, s.tick)
  | .setKey k pressed => (.done, s.setKey k pressed)
  | .snapshot => (.grid s.snapshot, s)
  | .readDt => (.timer s.readDt, s)
  | .readSt => (.timer s.readSt, s)

/-- A sequence of operations in the order they are issued: the responses and the state at the end. -/
def runOps : List HostOp → State → List Response × State
  | [], s => ([], s)
  | op :: ops, s =>
    let r := op.run s
    let q := runOps ops r.2
    (r.1 :: q.1, q.2)

end Sys2Proof.Machine
end

