-- ==== Sys2Proof/Safety.lean ====
section
/-! DEFINITION. What claims call a good state and a good run. -/

namespace Sys2Proof.Machine

/-- The invariant of the reachable states (spec/10_state.md rules R26, R40; 40_flow R100): memory is canonical; pc is at
most 0x10FE, the largest value the spec says it can take; while AwaitingKey it still addresses the FX0A, so it is at
most 0xFFE; every slot holds an address at which a call was fetched, or 0. The ranges of `sp`, V, the timers, the
pixels and the keys hold by their types. -/
def State.Inv (s : State) : Prop :=
  Memory.wf s.mem ∧ s.pc.toNat ≤ 0x10FE ∧ (s.mode = .awaitingKey → s.pc.toNat ≤ 0xFFE)
    ∧ ∀ k : Fin 16, s.stack[k.val].toNat ≤ 0xFFE

/-- A state the interface operations can reach from RESET (70_reset R247). -/
def Reachable (s : State) : Prop := ∃ ops : List HostOp, (runOps ops State.reset).2 = s

/-- The next STEP raises no fault: a well-formed program keeps every state so (60_exceptions R212). -/
def State.StepsWell (s : State) : Prop := ∃ t, step s = .next t

/-- The normal end of a program: Running, and pc addresses a 1NNN word with NNN = pc (70_reset R247, decision D23;
notes/assumptions/30.md). -/
def State.AtSelfJump (s : State) : Prop :=
  s.mode = .running ∧ fetchFault s = none ∧ ∃ nnn : Addr12, decodeWord (fetchWord s) = some (.jp nnn) ∧ zext16 nnn = s.pc

end Sys2Proof.Machine
end

