-- ==== Sys2Proof/Certificates/Slice0/Obligations.lean ====
section
/-! DEFINITION. The statements for the provers, each with the rule of spec/ it formalises. A statement that rests on a
decision of the spec (92_eei_decisions D1 to D24), on general knowledge the spec marks, or on an inference it marks as
derived says so, with the log entry of notes/assumptions. -/

open Sys2Proof Sys2Proof.Machine

namespace Sys2Proof.Claims

/-- The call stack is as it was. -/
def SameStack (s t : State) : Prop := t.stack = s.stack ∧ t.sp = s.sp

/-- Both timers are as they were. -/
def SameTimers (s t : State) : Prop := t.dt = s.dt ∧ t.st = s.st

/-- The key-wait machine is as it was. -/
def SameWait (s t : State) : Prop := t.mode = s.mode ∧ t.waitX = s.waitX

/-- Every pixel is as it was. -/
def SamePixels (s t : State) : Prop := ∀ x y, t.fb.pixel x y = s.fb.pixel x y

/-- Every byte of memory reads as it did. -/
def SameBytes (s t : State) : Prop := ∀ a, t.readByte a = s.readByte a

/-- Every register whose number is not listed is as it was. -/
def SameRegsBut (ks : List Nibble) (s t : State) : Prop := ∀ k, k ∉ ks → t.getV k = s.getV k

/-- A pixel is covered by the sprite DXYN draws in a state: a 1 bit of row r (the byte at I + r), column c, lands on it
after each coordinate is wrapped (43_display R161, R163). Column c is bit 7 - c when `SPRITE_MSB_LEFT` is true, else bit
c. -/
def Covered (s : State) (x y n : Nibble) (px : Fin 64) (py : Fin 32) : Prop :=
  ∃ r < n.toNat, ∃ c < 8,
    (s.readByte (s.i.toNat + r)).getLsbD (if Params.spriteMsbLeft then 7 - c else c) = true
      ∧ px.val = ((s.getV x).toNat + c) % 64 ∧ py.val = ((s.getV y).toNat + r) % 32

/-- The new pc of every instruction whose meaning answers a next state (10_state R25). -/
def nextPc (i : Instr) (s t : State) : Prop :=
  match i with
  | .jp nnn | .call nnn => t.pc.toNat = nnn.toNat
  | .jpv0 nnn => t.pc.toNat = nnn.toNat + (s.getV 0x0#4).toNat
  | .ret => ∃ h : t.sp.val < 16, t.sp.val + 1 = s.sp.val ∧ t.pc = s.stack[t.sp.val] + 2
  | .sei x nn => t.pc = s.pc + (if s.getV x = nn then 4 else 2)
  | .snei x nn => t.pc = s.pc + (if s.getV x = nn then 2 else 4)
  | .ser x y => t.pc = s.pc + (if s.getV x = s.getV y then 4 else 2)
  | .sner x y => t.pc = s.pc + (if s.getV x = s.getV y then 2 else 4)
  | .skp x => ∀ k : Nibble, k.toNat = (s.getV x).toNat → t.pc = s.pc + (if s.keySet k then 4 else 2)
  | .sknp x => ∀ k : Nibble, k.toNat = (s.getV x).toNat → t.pc = s.pc + (if s.keySet k then 2 else 4)
  | .wkey _ => t.pc = s.pc
  | .cls | .ldi _ _ | .addi _ _ | .mov _ _ | .or _ _ | .and _ _ | .xor _ _ | .add _ _ | .sub _ _ | .shr _ _ | .shl _ _
  | .seti _ | .rnd _ _ | .drw _ _ _ | .gdt _ | .sdt _ | .sst _ | .adi _ | .font _ | .bcd _ | .stm _ | .ldm _ =>
    t.pc = s.pc + 2

/-- Whether an instruction can change VF: the six that write it as a side effect, whatever X and Y, and those whose
destination register is V[F] (10_state R22, R27). -/
def mayWriteVF : Instr → Prop
  | .add _ _ | .sub _ _ | .shr _ _ | .shl _ _ | .drw _ _ _ | .adi _ => True
  | .ldi x _ | .addi x _ | .mov x _ | .or x _ | .and x _ | .xor x _ | .rnd x _ | .gdt x | .ldm x => x = 0xF#4
  | .cls | .ret | .jp _ | .call _ | .sei _ _ | .snei _ _ | .ser _ _ | .sner _ _ | .seti _ | .jpv0 _ | .skp _ | .sknp _
  | .wkey _ | .sdt _ | .sst _ | .font _ | .bcd _ | .stm _ => False

/-- The destination registers of the register instructions: V[X], and VF for the four that write a flag. -/
def regDests : Instr → Option (List Nibble)
  | .ldi x _ | .addi x _ | .mov x _ | .or x _ | .and x _ | .xor x _ | .rnd x _ | .gdt x => some [x]
  | .add x _ | .sub x _ | .shr x _ | .shl x _ => some [x, 0xF#4]
  | _ => none

end Sys2Proof.Claims

open Sys2Proof.Claims

/-! ## Encoding -/

/-- R72, R74, R78: no bit of an encoding is dropped. Decoding the word, or the two bytes, of any well-formed instruction
gives it back. -/
def Obligations.DecodeOfEncode : Prop :=
  ∀ (i : Instr) (rest : List Byte), i.WellFormed →
    decodeWord (encode i) = some i ∧ decodeBytes (encodeBytes i ++ rest) = .instr i rest

/-- R74, R76: a word that decodes is the word of what it decodes to (the ignored Y of SHR and SHL included). That a
non-zero low digit of 5XYn or 9XYn is no instruction is decision D2 (notes/assumptions/13.md). -/
def Obligations.EncodeOfDecode : Prop :=
  ∀ (op : Word) (i : Instr), decodeWord op = some i → encode i = op

/-- R77: "`op` is that instruction if and only if `(op AND mask) = match`", for all 65536 words and 33 rows. That a
non-zero low digit of 5XYn or 9XYn is no instruction is decision D2 (notes/assumptions/13.md). -/
def Obligations.DecodeAgreesWithTheTable : Prop :=
  ∀ (op : Word) (m : Mnemonic),
    (∃ i, decodeWord op = some i ∧ i.mnemonic = m) ↔ op &&& m.maskMatch.1 = m.maskMatch.2

/-- R79: exactly the words the table of R79 enumerates decode to nothing. 8XY7 and the non-zero low digits of 5XYn and
9XYn are there by the spec's decisions D1 and D2 (notes/assumptions/5.md, 13.md). -/
def Obligations.UnknownWordsAreTheListedOnes : Prop :=
  ∀ op : Word,
    decodeWord op = none ↔
      (op.toNat < 0x1000 ∧ op.toNat ≠ 0x00E0 ∧ op.toNat ≠ 0x00EE)
      ∨ (op.toNat / 0x1000 = 0x5 ∧ op.toNat % 16 ≠ 0)
      ∨ (op.toNat / 0x1000 = 0x8 ∧ op.toNat % 16 ∈ [0x7, 0x8, 0x9, 0xA, 0xB, 0xC, 0xD, 0xF])
      ∨ (op.toNat / 0x1000 = 0x9 ∧ op.toNat % 16 ≠ 0)
      ∨ (op.toNat / 0x1000 = 0xE ∧ op.toNat % 256 ∉ [0x9E, 0xA1])
      ∨ (op.toNat / 0x1000 = 0xF ∧ op.toNat % 256 ∉ [0x07, 0x0A, 0x15, 0x18, 0x1E, 0x29, 0x33, 0x55, 0x65])

/-- 95_test_vectors 2.1: words written out from the spec decode to what they stand for (a sanity statement). That 8AB7 is
no instruction is decision D1 (notes/assumptions/5.md). -/
def Obligations.DecodesTheSpecsWords : Prop :=
  decodeWord 0x00E0 = some .cls ∧ decodeWord 0x2210 = some (.call 0x210) ∧ decodeWord 0x3A7F = some (.sei 0xA 0x7F)
    ∧ decodeWord 0x8AB5 = some (.sub 0xA 0xB) ∧ decodeWord 0xD125 = some (.drw 0x1 0x2 0x5)
    ∧ decodeWord 0xE1A1 = some (.sknp 0x1) ∧ decodeWord 0xF165 = some (.ldm 0x1) ∧ decodeWord 0x8AB7 = none

/-- R82, R83: the disassembly of every instruction is a well-formed line, and assembles back to the same instruction
(SHR and SHL with their Y field too). The notation is the spec's own (D16, notes/assumptions/28.md). -/
def Obligations.AssemblesWhatItDisassembles : Prop :=
  ∀ i : Instr, i.toLine.wellFormed = true ∧ i.toLine.toInstr = some i

/-! ## One STEP -/

/-- R200, R50: when the two bytes at pc, the first the high one, decode to a well-formed instruction, a STEP in Running
mode is the execution of that instruction, and nothing more. -/
def Obligations.StepRunsTheDecodedInstruction : Prop :=
  ∀ (s : State) (i : Instr), s.mode = .running → s.pc.toNat ≤ 0xFFE →
    decodeWord (BitVec.ofNat 16 ((s.readByte s.pc.toNat).toNat * 256 + (s.readByte (s.pc.toNat + 1)).toNat)) = some i →
    i.WellFormed → step s = exec i s

/-- R55, R208: a fetch that would touch an address of 4096 or more faults, whatever memory holds. The payload is the
spec's decision D13 (notes/assumptions/9.md). That a pc past 0xFFF is not masked is decision D7
(notes/assumptions/11.md). That this fault comes before any other is decision D21 (notes/assumptions/21.md). -/
def Obligations.FetchOutOfBoundsFaults : Prop :=
  ∀ s : State, s.mode = .running → 0xFFE < s.pc.toNat →
    step s = .fault (.outOfBoundsAccess (if s.pc.toNat = 0xFFF then 0x1000 else s.pc.toNat))

/-- R202: a fetched word that is none of the 33 instructions is UnknownOpcode with that whole word. That 8XY7 is such a
word rests on D1, `HAS_SUBN` false (notes/assumptions/5.md), 5XYn and 9XYn on D2 (notes/assumptions/13.md). -/
def Obligations.UnknownOpcodeFaults : Prop :=
  ∀ s : State, s.mode = .running → s.pc.toNat ≤ 0xFFE → decodeWord (fetchWord s) = none →
    step s = .fault (.unknownOpcode
      (BitVec.ofNat 16 ((s.readByte s.pc.toNat).toNat * 256 + (s.readByte (s.pc.toNat + 1)).toNat)))

/-- R172: the encounter step latches X and enters AwaitingKey, whatever keys are set, and reports WaitingForKey; nothing
else changes. The latch and the report are the spec's decision D14 (notes/assumptions/15.md, 20.md). Silence about VF is
decision D20 (notes/assumptions/17.md). -/
def Obligations.WkeyEntersTheWait : Prop :=
  ∀ (s : State) (x : Nibble),
    exec (.wkey x) s = .next { s with waitX := x, mode := .awaitingKey }
      ∧ (∀ t, exec (.wkey x) s = .next t → t.report = .waitingForKey)

/-- R173: while AwaitingKey a STEP with no key set changes nothing and reports WaitingForKey; with a key set the least
one goes to the latched register, pc moves by 2, the mode is Running, the STEP reports Executed, and nothing else
changes. The latch is decision D14 (notes/assumptions/15.md). The report is read off the next state
(notes/assumptions/20.md). Sums with pc wrap modulo 65536, in states no run reaches (notes/assumptions/29.md). -/
def Obligations.WaitingStepTakesTheLeastKey : Prop :=
  ∀ s : State, s.mode = .awaitingKey →
    ((∀ k, s.keySet k = false) → step s = .next s ∧ s.report = .waitingForKey)
      ∧ ∀ k, s.keySet k = true → (∀ j : Nibble, j.toNat < k.toNat → s.keySet j = false) →
        ∃ t, step s = .next t ∧ t = { s with v := t.v, pc := s.pc + 2, mode := .running } ∧ t.report = .executed
          ∧ t.getV s.waitX = BitVec.ofNat 8 k.toNat ∧ SameRegsBut [s.waitX] s t

/-- R174: a STEP that does not fault leaves AwaitingKey, and so reports WaitingForKey, exactly when it runs FX0A or waits
with no key set. The report and the encounter step are decision D14 (notes/assumptions/15.md, 20.md). -/
def Obligations.StepReportsByTheWaitTable : Prop :=
  ∀ s t : State, step s = .next t →
    (t.report = .waitingForKey ↔
      (s.mode = .running ∧ ∃ x, decodeWord (fetchWord s) = some (.wkey x))
        ∨ (s.mode = .awaitingKey ∧ ∀ k, s.keySet k = false))

/-! ## Control transfer -/

/-- R100: RET pops the most recently pushed slot, resumes 2 after it, and keeps the slot's value; at sp = 0 it is
StackUnderflow, the spec's decision D3 (notes/assumptions/12.md). Silence about VF is decision D20
(notes/assumptions/17.md). Sums with pc wrap modulo 65536, in states no run reaches (notes/assumptions/29.md). -/
def Obligations.RetResumesAfterTheCall : Prop :=
  ∀ s : State,
    (∀ h : 0 < s.sp.val,
      exec .ret s = .next { s with sp := ⟨s.sp.val - 1, by omega⟩, pc := s.stack[s.sp.val - 1]'(by omega) + 2 })
      ∧ (s.sp.val = 0 → exec .ret s = .fault .stackUnderflow)

/-- R101: JP sets pc to NNN and does nothing else; a jump to its own address changes nothing; 1FFF makes the next STEP
fault. That the target is checked only at the next fetch is decision D7 (notes/assumptions/11.md), that fault's payload
D13 (notes/assumptions/9.md). Silence about VF is decision D20 (notes/assumptions/17.md). -/
def Obligations.JumpGoesToItsTarget : Prop :=
  ∀ (s : State) (nnn : Addr12),
    exec (.jp nnn) s = .next { s with pc := BitVec.ofNat 16 nnn.toNat }
      ∧ (s.pc.toNat = nnn.toNat → exec (.jp nnn) s = .next s)
      ∧ (∀ t, s.mode = .running → nnn = 0xFFF#12 → exec (.jp nnn) s = .next t →
          step t = .fault (.outOfBoundsAccess 0x1000))

/-- R102: CALL pushes its own address and jumps; the other slots stay; at sp = 16 it is StackOverflow, the spec's
decision D3 (notes/assumptions/12.md). Silence about VF is decision D20 (notes/assumptions/17.md). -/
def Obligations.CallPushesItsOwnAddress : Prop :=
  ∀ (s : State) (nnn : Addr12),
    (∀ h : s.sp.val < 16,
      exec (.call nnn) s = .next { s with
        stack := s.stack.set s.sp.val s.pc h, sp := ⟨s.sp.val + 1, by omega⟩, pc := BitVec.ofNat 16 nnn.toNat })
      ∧ (s.sp.val = 16 → exec (.call nnn) s = .fault .stackOverflow)

/-- R103: JPV0 goes to NNN + V[0], not reduced modulo 4096 (decision D7, notes/assumptions/11.md). Silence about VF is
decision D20 (notes/assumptions/17.md). -/
def Obligations.JumpPlusV0IsNotReduced : Prop :=
  ∀ (s : State) (nnn : Addr12),
    exec (.jpv0 nnn) s = .next { s with pc := BitVec.ofNat 16 (nnn.toNat + (s.getV 0x0#4).toNat) }
      ∧ nnn.toNat + (s.getV 0x0#4).toNat ≤ 0x10FE

/-- R104, R105, R106, R107: the four register skips add 4 to pc when their condition holds, else 2, and do nothing else,
so the skipped bytes play no part; with X = Y, SER always skips and SNER never; from pc = 0xFFE the next fetch faults
whether or not the skip is taken. That pc is not masked and is checked only at that fetch is decision D7
(notes/assumptions/11.md). Silence about VF is decision D20 (notes/assumptions/17.md). Sums with pc wrap modulo 65536,
in states no run reaches (notes/assumptions/29.md). -/
def Obligations.SkipsAddFourOrTwo : Prop :=
  ∀ (s : State) (x y : Nibble) (nn : Byte),
    exec (.sei x nn) s = .next { s with pc := s.pc + (if s.getV x = nn then 4 else 2) }
      ∧ exec (.snei x nn) s = .next { s with pc := s.pc + (if s.getV x = nn then 2 else 4) }
      ∧ exec (.ser x y) s = .next { s with pc := s.pc + (if s.getV x = s.getV y then 4 else 2) }
      ∧ exec (.sner x y) s = .next { s with pc := s.pc + (if s.getV x = s.getV y then 2 else 4) }
      ∧ exec (.ser x x) s = .next { s with pc := s.pc + 4 } ∧ exec (.sner x x) s = .next { s with pc := s.pc + 2 }
      ∧ ∀ (i : Instr) (t : State), i ∈ [.sei x nn, .snei x nn, .ser x y, .sner x y] → s.mode = .running →
          s.pc = 0xFFE → exec i s = .next t → ∃ a, step t = .fault (.outOfBoundsAccess a)

/-! ## Loads, arithmetic, logic, shifts, random -/

/-- R120, R122: LDI and MOV write V[X], move pc by 2 and change nothing else. That VF is kept unless X = F is decision
D20 (notes/assumptions/17.md). Sums with pc wrap modulo 65536, in states no run reaches (notes/assumptions/29.md). -/
def Obligations.LoadAndCopyWriteVX : Prop :=
  ∀ (s : State) (x y : Nibble) (nn : Byte),
    exec (.ldi x nn) s = .next { s with v := s.v.set x.toNat nn x.isLt, pc := s.pc + 2 }
      ∧ exec (.mov x y) s = .next { s with v := s.v.set x.toNat (s.getV y) x.isLt, pc := s.pc + 2 }

/-- R121, R123, R124, R125: ADDI wraps modulo 256, the logic operations are bitwise, and none of them touches VF unless
X = F (that silence means no effect is the spec's decision D20, notes/assumptions/17.md). Sums with pc wrap modulo
65536, in states no run reaches (notes/assumptions/29.md). -/
def Obligations.AddImmediateAndLogicKeepVF : Prop :=
  ∀ (s : State) (x y : Nibble) (nn : Byte),
    exec (.addi x nn) s = .next { s with
        v := s.v.set x.toNat (BitVec.ofNat 8 (((s.getV x).toNat + nn.toNat) % 256)) x.isLt, pc := s.pc + 2 }
      ∧ exec (.or x y) s = .next { s with v := s.v.set x.toNat (s.getV x ||| s.getV y) x.isLt, pc := s.pc + 2 }
      ∧ exec (.and x y) s = .next { s with v := s.v.set x.toNat (s.getV x &&& s.getV y) x.isLt, pc := s.pc + 2 }
      ∧ exec (.xor x y) s = .next { s with v := s.v.set x.toNat (s.getV x ^^^ s.getV y) x.isLt, pc := s.pc + 2 }

/-- R126, R127: ADD and SUB put the result modulo 256 into V[X] and then the carry, or no borrow, into VF. That the flag
survives when X = F is the spec's decision D5 (notes/assumptions/7.md). Sums with pc wrap modulo 65536, in states no run
reaches (notes/assumptions/29.md). -/
def Obligations.AddAndSubSetCarryAndNoBorrow : Prop :=
  ∀ (s : State) (x y : Nibble),
    exec (.add x y) s = .next { s with
        v := (s.v.set x.toNat (BitVec.ofNat 8 (((s.getV x).toNat + (s.getV y).toNat) % 256)) x.isLt).set 15
          (if (s.getV x).toNat + (s.getV y).toNat > 255 then 1 else 0),
        pc := s.pc + 2 }
      ∧ exec (.sub x y) s = .next { s with
        v := (s.v.set x.toNat (BitVec.ofNat 8 (((s.getV x).toNat + 256 - (s.getV y).toNat) % 256)) x.isLt).set 15
          (if (s.getV x).toNat ≥ (s.getV y).toNat then 1 else 0),
        pc := s.pc + 2 }

/-- R128, R129: SHR and SHL shift V[X] by one and put the bit shifted out into VF; Y has no effect. That the flag
survives when X = F is the spec's decision D5 (notes/assumptions/7.md). Sums with pc wrap modulo 65536, in states no run
reaches (notes/assumptions/29.md). -/
def Obligations.ShiftsDropABitIntoVF : Prop :=
  ∀ (s : State) (x y : Nibble),
    exec (.shr x y) s = .next { s with
        v := (s.v.set x.toNat (BitVec.ofNat 8 ((s.getV x).toNat / 2)) x.isLt).set 15
          (BitVec.ofNat 8 ((s.getV x).toNat % 2)),
        pc := s.pc + 2 }
      ∧ exec (.shl x y) s = .next { s with
        v := (s.v.set x.toNat (BitVec.ofNat 8 ((s.getV x).toNat * 2 % 256)) x.isLt).set 15
          (BitVec.ofNat 8 ((s.getV x).toNat / 128)),
        pc := s.pc + 2 }

/-- R133: RND completes, and V[X] is the next free draw masked with NN, so no bit outside NN is set, whatever the draw
(a free value, D12, notes/assumptions/4.md). Silence about VF is decision D20 (notes/assumptions/17.md). Sums with pc
wrap modulo 65536, in states no run reaches (notes/assumptions/29.md). -/
def Obligations.RandomByteIsMasked : Prop :=
  ∀ (s : State) (x : Nibble) (nn : Byte),
    exec (.rnd x nn) s = .next { s with
        v := s.v.set x.toNat (Config.randomDraw s.draws &&& nn) x.isLt, pc := s.pc + 2, draws := s.draws + 1 }
      ∧ ∀ t, exec (.rnd x nn) s = .next t → t.getV x &&& ~~~nn = 0

/-- R131: "For every X other than F the two orders give the same state": only X = F depends on `VF_ORDER` (D5,
notes/assumptions/7.md). At X = F the flag-last order leaves the flag, the result-last order the result. -/
def Obligations.VfOrderMattersOnlyForVF : Prop :=
  ∀ (s : State) (x : Nibble) (r f : Byte),
    (x ≠ 0xF#4 → s.setResultFlag .flagLast x r f = s.setResultFlag .resultLast x r f)
      ∧ (s.setResultFlag .flagLast 0xF#4 r f).getV 0xF#4 = f
      ∧ (s.setResultFlag .resultLast 0xF#4 r f).getV 0xF#4 = r

/-! ## Index register and memory -/

/-- R140, R142: SETI and FONT set I (FONT to five times the whole of V[X], with no overflow) and change only I and pc.
Silence about VF is decision D20 (notes/assumptions/17.md). Sums with pc wrap modulo 65536, in states no run reaches
(notes/assumptions/29.md). -/
def Obligations.SetIndexAndFontAddress : Prop :=
  ∀ (s : State) (nnn : Addr12) (x : Nibble),
    exec (.seti nnn) s = .next { s with i := BitVec.ofNat 16 nnn.toNat, pc := s.pc + 2 }
      ∧ exec (.font x) s = .next { s with i := BitVec.ofNat 16 ((s.getV x).toNat * 5), pc := s.pc + 2 }
      ∧ (BitVec.ofNat 16 ((s.getV x).toNat * 5)).toNat = (s.getV x).toNat * 5

/-- R141: ADI adds V[X] to I modulo 65536 and puts into VF whether the unreduced sum exceeds 0xFFF; the wrap and the
flag's source are the spec's decision D6 (notes/assumptions/10.md). That the old VF is the addend when X = F is decision
D5 (notes/assumptions/7.md). Sums with pc wrap modulo 65536, in states no run reaches (notes/assumptions/29.md). -/
def Obligations.AddToIndexSetsOverflow : Prop :=
  ∀ (s : State) (x : Nibble),
    exec (.adi x) s = .next { s with
      i := BitVec.ofNat 16 ((s.i.toNat + (s.getV x).toNat) % 65536),
      v := s.v.set 15 (if s.i.toNat + (s.getV x).toNat > 0xFFF then 1 else 0),
      pc := s.pc + 2 }

/-- R143: with the three bytes at I in range, BCD stores hundreds, tens and units at I, I+1, I+2; every other byte, I
and everything but pc stay. Silence about VF is decision D20 (notes/assumptions/17.md). That memory is in its canonical
form is the model's own premise (notes/assumptions/25.md). Sums with pc wrap modulo 65536, in states no run reaches
(notes/assumptions/29.md). -/
def Obligations.BcdStoresThreeDigits : Prop :=
  ∀ (s : State) (x : Nibble), Memory.wf s.mem → s.i.toNat + 2 ≤ 4095 →
    ∃ t, exec (.bcd x) s = .next t ∧ t = { s with mem := t.mem, pc := s.pc + 2 }
      ∧ (t.readByte s.i.toNat).toNat = (s.getV x).toNat / 100
      ∧ (t.readByte (s.i.toNat + 1)).toNat = (s.getV x).toNat / 10 % 10
      ∧ (t.readByte (s.i.toNat + 2)).toNat = (s.getV x).toNat % 10
      ∧ ∀ a, a < s.i.toNat ∨ s.i.toNat + 2 < a → t.readByte a = s.readByte a

/-- R144: the three digits are floor(v/100), floor(v/10) mod 10, v mod 10, and 100h + 10t + u = v. -/
def Obligations.BcdDigitsRecompose : Prop :=
  ∀ v : Byte, ∃ h t u : Byte, bcdDigits v = [h, t, u]
    ∧ h.toNat = v.toNat / 100 ∧ t.toNat = v.toNat / 10 % 10 ∧ u.toNat = v.toNat % 10
    ∧ 100 * h.toNat + 10 * t.toNat + u.toNat = v.toNat

/-- R145: with I + X in range, STM stores V[k] at I + k for k = 0..X and advances I by X + 1; every other byte and
everything but I and pc stay. Silence about VF is decision D20 (notes/assumptions/17.md). That memory is in its
canonical form is the model's own premise (notes/assumptions/25.md). Sums with pc wrap modulo 65536, in states no run
reaches (notes/assumptions/29.md). -/
def Obligations.StmStoresTheRegisters : Prop :=
  ∀ (s : State) (x : Nibble), Memory.wf s.mem → s.i.toNat + x.toNat ≤ 4095 →
    ∃ t, exec (.stm x) s = .next t ∧ t = { s with mem := t.mem, i := t.i, pc := s.pc + 2 }
      ∧ t.i.toNat = s.i.toNat + x.toNat + 1
      ∧ (∀ k : Nibble, k.toNat ≤ x.toNat → t.readByte (s.i.toNat + k.toNat) = s.getV k)
      ∧ ∀ a, a < s.i.toNat ∨ s.i.toNat + x.toNat < a → t.readByte a = s.readByte a

/-- R146: with I + X in range, LDM loads V[k] from I + k for k = 0..X, keeps the registers above X, and advances I by X
+ 1; memory and everything but V, I and pc stay. Silence about VF is decision D20 (notes/assumptions/17.md). Sums with
pc wrap modulo 65536, in states no run reaches (notes/assumptions/29.md). -/
def Obligations.LdmLoadsTheRegisters : Prop :=
  ∀ (s : State) (x : Nibble), s.i.toNat + x.toNat ≤ 4095 →
    ∃ t, exec (.ldm x) s = .next t ∧ t = { s with v := t.v, i := t.i, pc := s.pc + 2 }
      ∧ t.i.toNat = s.i.toNat + x.toNat + 1
      ∧ (∀ k : Nibble, k.toNat ≤ x.toNat → t.getV k = s.readByte (s.i.toNat + k.toNat))
      ∧ ∀ k : Nibble, x.toNat < k.toNat → t.getV k = s.getV k

/-- R146, 90_conflicts C10: FX55, then FX65 with I set back to the same base, reproduces V[0]..V[X] exactly whatever the
registers held in between, and each advances I by X + 1. That memory is in its canonical form is the model's own premise
(notes/assumptions/25.md). -/
def Obligations.StoreThenLoadReproducesRegisters : Prop :=
  ∀ (s t : State) (x : Nibble) (w : Vector Byte 16), Memory.wf s.mem → exec (.stm x) s = .next t →
    ∃ u, exec (.ldm x) { t with i := s.i, v := w } = .next u ∧ (∀ k : Nibble, k.toNat ≤ x.toNat → u.getV k = s.getV k)
      ∧ t.i.toNat = s.i.toNat + x.toNat + 1 ∧ u.i = t.i

/-- R56, R206: an access that would touch an address of 4096 or more faults before anything is read or written, for each
of the four instructions that access memory at I. The payload is the spec's decision D13 (notes/assumptions/9.md). That
a fault leaves the state is decision D15 (notes/assumptions/21.md). -/
def Obligations.OutOfRangeAccessesFault : Prop :=
  ∀ (s : State) (x y n : Nibble),
    (s.i.toNat + 2 > 4095 → exec (.bcd x) s = .fault (.outOfBoundsAccess (max s.i.toNat 4096)))
      ∧ (s.i.toNat + x.toNat > 4095 →
          exec (.stm x) s = .fault (.outOfBoundsAccess (max s.i.toNat 4096))
            ∧ exec (.ldm x) s = .fault (.outOfBoundsAccess (max s.i.toNat 4096)))
      ∧ (n ≠ 0 → s.i.toNat + n.toNat > 4096 →
          exec (.drw x y n) s = .fault (.outOfBoundsAccess (max s.i.toNat 4096)))

/-- R62: code stored by FX55 over the next instruction is what the next STEP fetches; nothing has to be executed in
between. That memory is in its canonical form is the model's own premise (notes/assumptions/25.md). -/
def Obligations.StoredCodeIsFetchedNext : Prop :=
  ∀ (s t : State) (x : Nibble) (a b : Nibble), Memory.wf s.mem → s.pc.toNat ≤ 0xFFC → exec (.stm x) s = .next t →
    a.toNat ≤ x.toNat → b.toNat = a.toNat + 1 → b.toNat ≤ x.toNat → s.i.toNat + a.toNat = s.pc.toNat + 2 →
    fetchWord t = wordOfBytes (s.getV a) (s.getV b)

/-! ## Display -/

/-- R160: CLS clears every pixel and changes only the framebuffer and pc; that VF is kept is decision D20
(notes/assumptions/17.md). Sums with pc wrap modulo 65536, in states no run reaches (notes/assumptions/29.md). -/
def Obligations.ClearScreenClearsEveryPixel : Prop :=
  ∀ s : State, ∃ t, exec .cls s = .next t ∧ t = { s with fb := t.fb, pc := s.pc + 2 } ∧ ∀ x y, t.fb.pixel x y = false

/-- R161, R162: with its bytes in range, or with N = 0, DRW inverts exactly the covered pixels, puts into VF whether a
covered pixel was set, and changes only the framebuffer, VF and pc. Which bit is column 0 is decision D10
(notes/assumptions/3.md), the case N = 0 decision D19 (notes/assumptions/16.md). That the coordinates are read before VF
is written is decision D5 (notes/assumptions/7.md). Sums with pc wrap modulo 65536, in states no run reaches
(notes/assumptions/29.md). -/
def Obligations.DrawInvertsTheCoveredPixels : Prop :=
  ∀ (s : State) (x y n : Nibble), (n = 0 ∨ s.i.toNat + n.toNat ≤ 4096) →
    ∃ t, exec (.drw x y n) s = .next t ∧ t = { s with fb := t.fb, v := t.v, pc := s.pc + 2 }
      ∧ (∀ px py, Covered s x y n px py → t.fb.pixel px py = !s.fb.pixel px py)
      ∧ (∀ px py, ¬Covered s x y n px py → t.fb.pixel px py = s.fb.pixel px py)
      ∧ ((∃ px py, Covered s x y n px py ∧ s.fb.pixel px py = true) → t.getV 0xF#4 = 1)
      ∧ ((¬∃ px py, Covered s x y n px py ∧ s.fb.pixel px py = true) → t.getV 0xF#4 = 0)
      ∧ SameRegsBut [0xF#4] s t

/-- R162 (c): within one DXYN no pixel is toggled twice, for either order of the bits. -/
def Obligations.NoPixelIsToggledTwice : Prop :=
  ∀ (s : State) (x y n : Nibble) (msbLeft : Bool), (drawnPixels msbLeft x y n s).Nodup

/-- R163: the same DXYN word executed twice, neither X nor Y being F, restores all 2048 pixels; the first leaves VF = 1
iff a covered pixel was set before it, the second iff a covered pixel was clear before the first. Which pixels are
covered is decision D10 (notes/assumptions/3.md). That VF is cleared when N = 0 is decision D19
(notes/assumptions/16.md). -/
def Obligations.DrawingTwiceRestoresThePixels : Prop :=
  ∀ (s t : State) (x y n : Nibble), x ≠ 0xF#4 → y ≠ 0xF#4 → exec (.drw x y n) s = .next t →
    ∃ u, exec (.drw x y n) { t with pc := s.pc } = .next u
      ∧ (∀ px py, u.fb.pixel px py = s.fb.pixel px py)
      ∧ (t.getV 0xF#4 = 1 ↔ ∃ px py, Covered s x y n px py ∧ s.fb.pixel px py = true)
      ∧ (u.getV 0xF#4 = 1 ↔ ∃ px py, Covered s x y n px py ∧ s.fb.pixel px py = false)

/-! ## Keypad and timers -/

/-- R170, R171: with V[X] at most 15, SKP and SKNP skip on the level of the key it numbers and change only pc; above 15
both are KeyIndexOutOfRange, the spec's decision D4 (notes/assumptions/6.md). Silence about VF is decision D20
(notes/assumptions/17.md). Sums with pc wrap modulo 65536, in states no run reaches (notes/assumptions/29.md). -/
def Obligations.KeySkipsTestTheLevel : Prop :=
  ∀ (s : State) (x : Nibble),
    (∀ k : Nibble, (s.getV x).toNat = k.toNat →
      exec (.skp x) s = .next { s with pc := s.pc + (if s.keySet k then 4 else 2) }
        ∧ exec (.sknp x) s = .next { s with pc := s.pc + (if s.keySet k then 2 else 4) })
      ∧ (15 < (s.getV x).toNat →
        exec (.skp x) s = .fault (.keyIndexOutOfRange (s.getV x))
          ∧ exec (.sknp x) s = .fault (.keyIndexOutOfRange (s.getV x)))

/-- R175, R176, R177: GDT reads the delay timer, SDT writes it, SST writes the sound timer; each moves pc by 2 and
changes nothing else. Which opcode names which timer is general knowledge (93 G3, notes/assumptions/23.md). Silence
about VF is decision D20 (notes/assumptions/17.md). Sums with pc wrap modulo 65536, in states no run reaches
(notes/assumptions/29.md). -/
def Obligations.TimerInstructionsMoveOneByte : Prop :=
  ∀ (s : State) (x : Nibble),
    exec (.gdt x) s = .next { s with v := s.v.set x.toNat s.dt x.isLt, pc := s.pc + 2 }
      ∧ exec (.sdt x) s = .next { s with dt := s.getV x, pc := s.pc + 2 }
      ∧ exec (.sst x) s = .next { s with st := s.getV x, pc := s.pc + 2 }

/-- R179: TICK decrements each timer on its own while it is not 0, touches nothing else and returns nothing. -/
def Obligations.TickCountsEachTimerDown : Prop :=
  ∀ s : State, ∃ t, HostOp.tick.run s = (.done, t) ∧ t = { s with dt := t.dt, st := t.st }
    ∧ t.dt.toNat = s.dt.toNat - 1 ∧ t.st.toNat = s.st.toNat - 1

/-! ## Reset, load, keys, reads, faults -/

/-- R39, R230: RESET puts every piece of the spec's state at its table value, from any state. The source gives V, I, pc,
sp, the framebuffer and that the font is in place; the other values are the spec's decisions D9 and D14
(notes/assumptions/2.md, 8.md), and the font's bytes stay a named table (notes/assumptions/1.md). That a RESET from any
state, and so one after the first, has the same effect is decision D24 (notes/assumptions/19.md). -/
def Obligations.ResetLeavesTheTable : Prop :=
  ∀ s : State, ∃ t, HostOp.reset.run s = (.done, t)
    ∧ (∀ k, t.getV k = 0) ∧ t.i = 0 ∧ t.pc = 0x200 ∧ t.sp = 0 ∧ (∀ k : Fin 16, t.stack[k.val] = 0) ∧ t.dt = 0 ∧ t.st = 0
    ∧ t.mode = .running ∧ t.waitX = 0 ∧ (∀ x y, t.fb.pixel x y = false) ∧ (∀ k, t.keySet k = false)
    ∧ (∀ a < 80, some (t.readByte a) = Params.fontData[a]?) ∧ (∀ a, 80 ≤ a → a < 4096 → t.readByte a = Params.memInit a)

/-- R238, R239: LOAD of at most 3584 bytes copies them to 0x200 upward and touches nothing else; a longer sequence is
LoadError and changes nothing. That LOAD does no more, and is allowed at any time, is decision D18
(notes/assumptions/18.md). That memory is in its canonical form is the model's own premise (notes/assumptions/25.md). -/
def Obligations.LoadCopiesTheProgram : Prop :=
  ∀ (s : State) (bs : List Byte), Memory.wf s.mem →
    (bs.length ≤ 3584 → ∃ t, (HostOp.load bs).run s = (.loaded, t) ∧ t = { s with mem := t.mem }
      ∧ (∀ j (h : j < bs.length), t.readByte (0x200 + j) = bs[j])
      ∧ ∀ a, a < 0x200 ∨ 0x200 + bs.length ≤ a → t.readByte a = s.readByte a)
    ∧ (3584 < bs.length → (HostOp.load bs).run s = (.loadError, s))

/-- R241: SETKEY sets the level of one key and changes nothing else; in particular it does not end a wait. That only a
STEP or RESET ends a wait is decision D14 (notes/assumptions/15.md). -/
def Obligations.SetKeySetsOneLevel : Prop :=
  ∀ (s : State) (k : Nibble) (p : Bool), ∃ t, (HostOp.setKey k p).run s = (.done, t) ∧ t = { s with key := t.key }
    ∧ t.keySet k = p ∧ ∀ j, j ≠ k → t.keySet j = s.keySet j

/-- R243, R244: SNAPSHOT, READ_DT and READ_ST return the grid, DT and ST, and change nothing. -/
def Obligations.ReadsChangeNothing : Prop :=
  ∀ s : State, HostOp.snapshot.run s = (.grid s.fb, s) ∧ HostOp.readDt.run s = (.timer s.dt, s)
    ∧ HostOp.readSt.run s = (.timer s.st, s)

/-- R207, R209: a faulting STEP returns the fault and leaves the whole state as it was, so any number of STEPs after it
return the same fault and still change nothing (D15, notes/assumptions/21.md). -/
def Obligations.FaultsLeaveTheStateAndRepeat : Prop :=
  ∀ (s : State) (f : Fault) (n : Nat), step s = .fault f →
    runOps (List.replicate n .step) s = (List.replicate n (.faulted f), s)

/-! ## Invariants -/

/-- R26, R40, R100: every STEP keeps the invariant: canonical memory, pc at most 0x10FE, pc at most 0xFFE while
AwaitingKey, every slot at most 0xFFE. The first bound is that of an unmasked BNNN (D7, notes/assumptions/11.md). The
form of memory is the model's own (notes/assumptions/25.md). -/
def Obligations.StepKeepsTheInvariant : Prop :=
  ∀ s t : State, s.Inv → step s = .next t → t.Inv

/-- R39, R40: the state after RESET has the invariant (the reset values of the mode and the slots are D9,
notes/assumptions/8.md). -/
def Obligations.ResetHasTheInvariant : Prop := State.reset.Inv

/-- R40: every state the interface operations can reach from RESET, programs loaded, keys and ticks at any time, has the
invariant. That LOAD and RESET may come at any time is D18 and D24 (notes/assumptions/18.md, 19.md). That operations
come in any order and number between STEPs is D17 (notes/assumptions/22.md); the bound on pc is D7
(notes/assumptions/11.md), the reset values are D9 (notes/assumptions/8.md). -/
def Obligations.ReachableStatesKeepTheInvariant : Prop := ∀ s : State, Reachable s → s.Inv

/-! ## Frames -/

/-- The frame of LDI, ADDI, MOV, OR, AND, XOR, ADD, SUB, SHR, SHL, RND and GDT (41_alu; 44_keypad_timers R175): only
V[X], VF for the four that write a flag, and pc change (and the model's count of draws, for RND). That the others keep
VF is decision D20 (notes/assumptions/17.md). The count of draws is the model's own field (D12, notes/assumptions/4.md).
-/
def Obligations.FrameOfRegisterInstructions : Prop :=
  ∀ (i : Instr) (ks : List Nibble) (s t : State), regDests i = some ks → exec i s = .next t →
    SameRegsBut ks s t ∧ t.i = s.i ∧ SameStack s t ∧ SameTimers s t ∧ SameWait s t ∧ SamePixels s t ∧ t.key = s.key
      ∧ SameBytes s t ∧ ((∀ x nn, i ≠ .rnd x nn) → t.draws = s.draws)

/-- The frame of SETI, ADI, FONT and LDM (42_index_memory) and of WKEY, SDT and SST (44_keypad_timers): only what each
writes (I; VF too for ADI; V[0]..V[X] and I for LDM; the wait; DT; ST) and pc change. Silence about VF is decision D20
(notes/assumptions/17.md). That SDT keeps ST and SST keeps DT rests on which opcode names which timer, 93 G3
(notes/assumptions/23.md); that WKEY writes no V register is decision D14 (notes/assumptions/15.md). -/
def Obligations.FrameOfIndexTimerAndWaitInstructions : Prop :=
  ∀ (s t : State) (nnn : Addr12) (x : Nibble),
    (exec (.seti nnn) s = .next t → SameRegsBut [] s t ∧ SameTimers s t ∧ SameWait s t)
      ∧ (exec (.font x) s = .next t → SameRegsBut [] s t ∧ SameTimers s t ∧ SameWait s t)
      ∧ (exec (.adi x) s = .next t → SameRegsBut [0xF#4] s t ∧ SameTimers s t ∧ SameWait s t)
      ∧ (exec (.ldm x) s = .next t → (∀ k : Nibble, x.toNat < k.toNat → t.getV k = s.getV k) ∧ SameTimers s t ∧ SameWait s t)
      ∧ (exec (.wkey x) s = .next t → SameRegsBut [] s t ∧ t.i = s.i ∧ SameTimers s t)
      ∧ (exec (.sdt x) s = .next t → SameRegsBut [] s t ∧ t.i = s.i ∧ t.st = s.st ∧ SameWait s t)
      ∧ (exec (.sst x) s = .next t → SameRegsBut [] s t ∧ t.i = s.i ∧ t.dt = s.dt ∧ SameWait s t)
      ∧ ∀ i : Instr, i ∈ [.seti nnn, .font x, .adi x, .ldm x, .wkey x, .sdt x, .sst x] → exec i s = .next t →
          SameStack s t ∧ SamePixels s t ∧ t.key = s.key ∧ SameBytes s t ∧ t.draws = s.draws

/-- The frame of BCD and STM (42_index_memory R143, R145): every byte outside the stored ones (three from I, X + 1 from
I) reads as before; only those bytes, pc and, for STM, I change. Silence about VF is decision D20
(notes/assumptions/17.md). -/
def Obligations.FrameOfStoringInstructions : Prop :=
  ∀ (s t : State) (x : Nibble),
    (exec (.bcd x) s = .next t → t.i = s.i ∧ ∀ a, a < s.i.toNat ∨ s.i.toNat + 3 ≤ a → t.readByte a = s.readByte a)
      ∧ (exec (.stm x) s = .next t → ∀ a, a < s.i.toNat ∨ s.i.toNat + x.toNat + 1 ≤ a → t.readByte a = s.readByte a)
      ∧ (exec (.bcd x) s = .next t ∨ exec (.stm x) s = .next t →
          SameRegsBut [] s t ∧ SameStack s t ∧ SameTimers s t ∧ SameWait s t ∧ SamePixels s t ∧ t.key = s.key
            ∧ t.draws = s.draws)

/-- The frame of the control transfers and the skips (40_flow; 44_keypad_timers R170, R171): no register, I, timer,
pixel, key or byte of memory changes; only RET and CALL change the stack, RET its pointer alone. Silence about VF is
decision D20 (notes/assumptions/17.md). -/
def Obligations.FrameOfControlTransfers : Prop :=
  ∀ (s t : State) (nnn : Addr12) (x y : Nibble) (nn : Byte) (i : Instr),
    i ∈ [.ret, .jp nnn, .call nnn, .jpv0 nnn, .sei x nn, .snei x nn, .ser x y, .sner x y, .skp x, .sknp x] →
    exec i s = .next t →
      SameRegsBut [] s t ∧ t.i = s.i ∧ SameTimers s t ∧ SameWait s t ∧ SamePixels s t ∧ t.key = s.key ∧ SameBytes s t
        ∧ t.draws = s.draws ∧ (i ≠ .ret → i ≠ .call nnn → SameStack s t) ∧ (i = .ret → t.stack = s.stack)

/-- The frame of CLS and DRW (43_display): no register but VF, and that for DRW only, no I, stack, timer, key or byte of
memory changes. That CLS keeps VF is decision D20 (notes/assumptions/17.md). -/
def Obligations.FrameOfDisplayInstructions : Prop :=
  ∀ (s t : State) (x y n : Nibble),
    (exec .cls s = .next t → SameRegsBut [] s t)
      ∧ (exec (.drw x y n) s = .next t → SameRegsBut [0xF#4] s t)
      ∧ (exec .cls s = .next t ∨ exec (.drw x y n) s = .next t →
          t.i = s.i ∧ SameStack s t ∧ SameTimers s t ∧ SameWait s t ∧ t.key = s.key ∧ SameBytes s t ∧ t.draws = s.draws)

/-! ## Rules about the whole machine -/

/-- R25: the new pc of every instruction, as the complete list gives it; NNN + V[0] is not reduced (D7,
notes/assumptions/11.md). Sums with pc wrap modulo 65536, in states no run reaches (notes/assumptions/29.md). -/
def Obligations.PcAdvancesAsListed : Prop := ∀ (i : Instr) (s t : State), exec i s = .next t → nextPc i s t

/-- R22, R27: VF is changed only by the six instructions that write it as a side effect and by one whose destination is
V[F]. That no other does is decision D20 (notes/assumptions/17.md). That FX0A itself writes no V register is decision
D14 (notes/assumptions/15.md). -/
def Obligations.OnlyTheListedInstructionsWriteVF : Prop :=
  ∀ (i : Instr) (s t : State), exec i s = .next t → t.getV 0xF#4 ≠ s.getV 0xF#4 → mayWriteVF i

/-- R28, R29: a STEP changes a slot only when it runs CALL, and then only slot sp, which takes pc; it changes sp only by
CALL, one up, or RET, one down. -/
def Obligations.OnlyCallAndReturnTouchTheStack : Prop :=
  ∀ s t : State, step s = .next t →
    (∀ k : Fin 16, t.stack[k.val] ≠ s.stack[k.val] →
        (∃ nnn, decodeWord (fetchWord s) = some (.call nnn)) ∧ k.val = s.sp.val ∧ t.stack[k.val] = s.pc)
      ∧ (t.sp ≠ s.sp →
          ((∃ nnn, decodeWord (fetchWord s) = some (.call nnn)) ∧ t.sp.val = s.sp.val + 1)
            ∨ (decodeWord (fetchWord s) = some .ret ∧ s.sp.val = t.sp.val + 1))

/-- R32, R35, R248: no STEP changes a key; a STEP enters AwaitingKey only by FX0A and leaves it only when a key is set.
What ends the wait is decision D14 (notes/assumptions/15.md). -/
def Obligations.KeysAreReadOnlyAndTheWaitNeedsOne : Prop :=
  ∀ s t : State, step s = .next t →
    (∀ k, t.keySet k = s.keySet k)
      ∧ (s.mode = .running → t.mode = .awaitingKey → ∃ x, decodeWord (fetchWord s) = some (.wkey x))
      ∧ (s.mode = .awaitingKey → t.mode = .running → ∃ k, s.keySet k = true)

/-- R34, R37, R52, R179: a STEP changes a pixel only when it runs CLS or DRW, a byte of memory only when it runs BCD or
STM, DT only when it runs SDT, ST only when it runs SST: no STEP counts a timer down. Which opcode writes which timer is 93 G3
(notes/assumptions/23.md). -/
def Obligations.PixelsBytesAndTimersChangeOnlyByTheirInstructions : Prop :=
  ∀ s t : State, step s = .next t →
    (∀ px py, t.fb.pixel px py ≠ s.fb.pixel px py →
        decodeWord (fetchWord s) = some .cls ∨ ∃ x y n, decodeWord (fetchWord s) = some (.drw x y n))
      ∧ (∀ a, t.readByte a ≠ s.readByte a →
        ∃ x, decodeWord (fetchWord s) = some (.bcd x) ∨ decodeWord (fetchWord s) = some (.stm x))
      ∧ (t.dt ≠ s.dt → ∃ x, decodeWord (fetchWord s) = some (.sdt x))
      ∧ (t.st ≠ s.st → ∃ x, decodeWord (fetchWord s) = some (.sst x))

/-- R31: no instruction reads ST. Two states that differ in ST alone take the same STEP: the same fault, or next states
that differ in ST at most. Which timer is ST is 93 G3 (notes/assumptions/23.md). The two STEPs take the same draw, since
they start with the same count of draws (notes/assumptions/4.md). -/
def Obligations.NoStepReadsTheSoundTimer : Prop :=
  ∀ (s : State) (b : Byte),
    (∀ t, step s = .next t → ∃ c, step { s with st := b } = .next { t with st := c })
      ∧ ∀ f, step s = .fault f → step { s with st := b } = .fault f

/-- R33: in Running mode wait_x is never read. Two Running states that differ in it alone take the same STEP: the same
fault, or next states that differ in it at most. The latch is decision D14 (notes/assumptions/15.md). The two STEPs take
the same draw, since they start with the same count of draws (notes/assumptions/4.md). -/
def Obligations.NoRunningStepReadsTheWaitLatch : Prop :=
  ∀ (s : State) (w : Nibble), s.mode = .running →
    (∀ t, step s = .next t → ∃ c, step { s with waitX := w } = .next { t with waitX := c })
      ∧ ∀ f, step s = .fault f → step { s with waitX := w } = .fault f

/-- R247 (c): at a jump to itself every further STEP returns Executed and changes nothing; only another operation can.
That this is a program's normal end is decision D23 (notes/assumptions/30.md). -/
def Obligations.SelfJumpIsAFixedPoint : Prop :=
  ∀ (s : State) (n : Nat), s.AtSelfJump →
    runOps (List.replicate n .step) s = (List.replicate n (.stepped .executed), s)
end

