-- ==== Sys2Proof/Laws/Decode.lean ====
section
/-! SUPPORT. The formats and the fields as numbers, the fields of a word in each format, and a word from its fields or
its bytes (spec/30_encoding.md R71, R73; 20_memory R50). -/

namespace Sys2Proof

/-- An append as a number. -/
theorem toNat_append' {w v : Nat} (a : BitVec w) (b : BitVec v) : (a ++ b).toNat = a.toNat * 2 ^ v + b.toNat := by
  rw [BitVec.toNat_append, ← Nat.shiftLeft_add_eq_or_of_lt b.isLt, Nat.shiftLeft_eq]

section Numbers

variable (t x y n : Nibble) (nn hi lo : Byte) (nnn : Addr12) (op : Word)

theorem toNat_formatR : (formatR t x y n).toNat = t.toNat * 4096 + x.toNat * 256 + y.toNat * 16 + n.toNat := by
  have h : (formatR t x y n).toNat = (t ++ x ++ y ++ n).toNat := rfl
  rw [h]
  simp only [toNat_append']
  omega

theorem toNat_formatI : (formatI t x nn).toNat = t.toNat * 4096 + x.toNat * 256 + nn.toNat := by
  have h : (formatI t x nn).toNat = (t ++ x ++ nn).toNat := rfl
  rw [h]
  simp only [toNat_append']
  omega

theorem toNat_formatA : (formatA t nnn).toNat = t.toNat * 4096 + nnn.toNat := by
  have h : (formatA t nnn).toNat = (t ++ nnn).toNat := rfl
  rw [h]
  simp only [toNat_append']
  omega

/-- opcode = 256 * hi + lo (20_memory R50). -/
theorem toNat_wordOfBytes : (wordOfBytes hi lo).toNat = hi.toNat * 256 + lo.toNat := by
  have h : (wordOfBytes hi lo).toNat = (hi ++ lo).toNat := rfl
  rw [h]
  simp only [toNat_append']
  omega

theorem toNat_fieldT : (fieldT op).toNat = op.toNat / 4096 := by
  have := op.isLt
  simp only [fieldT, BitVec.extractLsb'_toNat, Nat.shiftRight_eq_div_pow]
  omega

theorem toNat_fieldX : (fieldX op).toNat = op.toNat / 256 % 16 := by
  simp only [fieldX, BitVec.extractLsb'_toNat, Nat.shiftRight_eq_div_pow]

theorem toNat_fieldY : (fieldY op).toNat = op.toNat / 16 % 16 := by
  simp only [fieldY, BitVec.extractLsb'_toNat, Nat.shiftRight_eq_div_pow]

theorem toNat_fieldN : (fieldN op).toNat = op.toNat % 16 := by
  simp only [fieldN, BitVec.extractLsb'_toNat, Nat.shiftRight_eq_div_pow]; omega

theorem toNat_fieldNN : (fieldNN op).toNat = op.toNat % 256 := by
  simp only [fieldNN, BitVec.extractLsb'_toNat, Nat.shiftRight_eq_div_pow]; omega

theorem toNat_fieldNNN : (fieldNNN op).toNat = op.toNat % 4096 := by
  simp only [fieldNNN, BitVec.extractLsb'_toNat, Nat.shiftRight_eq_div_pow]; omega

theorem toNat_highByte : (highByte op).toNat = op.toNat / 256 := by
  have := op.isLt
  simp only [highByte, BitVec.extractLsb'_toNat, Nat.shiftRight_eq_div_pow]
  omega

theorem toNat_lowByte : (lowByte op).toNat = op.toNat % 256 := by
  simp only [lowByte, BitVec.extractLsb'_toNat, Nat.shiftRight_eq_div_pow]; omega

end Numbers

section Fields

variable (t x y n : Nibble) (nn : Byte) (nnn : Addr12) (op : Word)

@[simp] theorem fieldT_formatR : fieldT (formatR t x y n) = t := by
  have := x.isLt; have := y.isLt; have := n.isLt
  apply BitVec.eq_of_toNat_eq; rw [toNat_fieldT, toNat_formatR]; omega
@[simp] theorem fieldX_formatR : fieldX (formatR t x y n) = x := by
  have := x.isLt; have := y.isLt; have := n.isLt
  apply BitVec.eq_of_toNat_eq; rw [toNat_fieldX, toNat_formatR]; omega
@[simp] theorem fieldY_formatR : fieldY (formatR t x y n) = y := by
  have := y.isLt; have := n.isLt
  apply BitVec.eq_of_toNat_eq; rw [toNat_fieldY, toNat_formatR]; omega
@[simp] theorem fieldN_formatR : fieldN (formatR t x y n) = n := by
  have := n.isLt
  apply BitVec.eq_of_toNat_eq; rw [toNat_fieldN, toNat_formatR]; omega
@[simp] theorem fieldT_formatI : fieldT (formatI t x nn) = t := by
  have := x.isLt; have := nn.isLt
  apply BitVec.eq_of_toNat_eq; rw [toNat_fieldT, toNat_formatI]; omega
@[simp] theorem fieldX_formatI : fieldX (formatI t x nn) = x := by
  have := x.isLt; have := nn.isLt
  apply BitVec.eq_of_toNat_eq; rw [toNat_fieldX, toNat_formatI]; omega
@[simp] theorem fieldNN_formatI : fieldNN (formatI t x nn) = nn := by
  have := nn.isLt
  apply BitVec.eq_of_toNat_eq; rw [toNat_fieldNN, toNat_formatI]; omega
@[simp] theorem fieldT_formatA : fieldT (formatA t nnn) = t := by
  have := nnn.isLt
  apply BitVec.eq_of_toNat_eq; rw [toNat_fieldT, toNat_formatA]; omega
@[simp] theorem fieldNNN_formatA : fieldNNN (formatA t nnn) = nnn := by
  have := nnn.isLt
  apply BitVec.eq_of_toNat_eq; rw [toNat_fieldNNN, toNat_formatA]; omega

/-- A word is its four digits. -/
theorem formatR_fields : formatR (fieldT op) (fieldX op) (fieldY op) (fieldN op) = op := by
  apply BitVec.eq_of_toNat_eq
  rw [toNat_formatR, toNat_fieldT, toNat_fieldX, toNat_fieldY, toNat_fieldN]; omega

/-- A word is its family, X and NN. -/
theorem formatI_fields : formatI (fieldT op) (fieldX op) (fieldNN op) = op := by
  apply BitVec.eq_of_toNat_eq
  rw [toNat_formatI, toNat_fieldT, toNat_fieldX, toNat_fieldNN]; omega

/-- A word is its family and NNN. -/
theorem formatA_fields : formatA (fieldT op) (fieldNNN op) = op := by
  apply BitVec.eq_of_toNat_eq
  rw [toNat_formatA, toNat_fieldT, toNat_fieldNNN]; omega

/-- A word is its two bytes, high byte first (20_memory R50). -/
@[simp] theorem wordOfBytes_bytes : wordOfBytes (highByte op) (lowByte op) = op := by
  apply BitVec.eq_of_toNat_eq
  rw [toNat_wordOfBytes, toNat_highByte, toNat_lowByte]; omega

/-! ### A word under the masks of R77 -/

theorem formatA_mask : formatA t nnn &&& 0xF000#16 = formatA t 0 := by
  have h : formatA t nnn &&& 0xF000#16 = (t ++ nnn) &&& (0xF#4 ++ 0x000#12) := rfl
  rw [h, BitVec.and_append, BitVec.and_zero, show t &&& 0xF#4 = t from BitVec.and_allOnes]; rfl

theorem formatI_mask : formatI t x nn &&& 0xF000#16 = formatI t 0 0 := by
  have h : formatI t x nn &&& 0xF000#16 = (t ++ x ++ nn) &&& (0xF#4 ++ 0x0#4 ++ 0x00#8) := rfl
  rw [h, BitVec.and_append, BitVec.and_append, BitVec.and_zero, BitVec.and_zero, show t &&& 0xF#4 = t from BitVec.and_allOnes]; rfl

theorem formatI_maskLow : formatI t x nn &&& 0xF0FF#16 = formatI t 0 nn := by
  have h : formatI t x nn &&& 0xF0FF#16 = (t ++ x ++ nn) &&& (0xF#4 ++ 0x0#4 ++ 0xFF#8) := rfl
  rw [h, BitVec.and_append, BitVec.and_append, BitVec.and_zero, show nn &&& 0xFF#8 = nn from BitVec.and_allOnes,
    show t &&& 0xF#4 = t from BitVec.and_allOnes]; rfl

theorem formatR_maskLow : formatR t x y n &&& 0xF00F#16 = formatR t 0 0 n := by
  have h : formatR t x y n &&& 0xF00F#16 = (t ++ x ++ y ++ n) &&& (0xF#4 ++ 0x0#4 ++ 0x0#4 ++ 0xF#4) := rfl
  rw [h, BitVec.and_append, BitVec.and_append, BitVec.and_append, BitVec.and_zero, BitVec.and_zero,
    show n &&& 0xF#4 = n from BitVec.and_allOnes, show t &&& 0xF#4 = t from BitVec.and_allOnes]; rfl

theorem formatR_mask : formatR t x y n &&& 0xF000#16 = formatR t 0 0 0 := by
  have h : formatR t x y n &&& 0xF000#16 = (t ++ x ++ y ++ n) &&& (0xF#4 ++ 0x0#4 ++ 0x0#4 ++ 0x0#4) := rfl
  rw [h, BitVec.and_append, BitVec.and_append, BitVec.and_append, BitVec.and_zero, BitVec.and_zero, BitVec.and_zero,
    show t &&& 0xF#4 = t from BitVec.and_allOnes]; rfl

end Fields

end Sys2Proof
end

