-- ==== Sys2Proof/Laws/State.lean ====
section
/-! SUPPORT. One lemma per field per named update of State: what the update puts there, or that it leaves it. No later
proof unfolds a record update. -/

namespace Sys2Proof.Machine

@[simp] theorem State.setV_v (s : State) (x : Nibble) (b : Byte) : (s.setV x b).v = s.v.set x.toNat b x.isLt := rfl
@[simp] theorem State.setV_i (s : State) (x : Nibble) (b : Byte) : (s.setV x b).i = s.i := rfl
@[simp] theorem State.setV_pc (s : State) (x : Nibble) (b : Byte) : (s.setV x b).pc = s.pc := rfl
@[simp] theorem State.setV_stack (s : State) (x : Nibble) (b : Byte) : (s.setV x b).stack = s.stack := rfl
@[simp] theorem State.setV_sp (s : State) (x : Nibble) (b : Byte) : (s.setV x b).sp = s.sp := rfl
@[simp] theorem State.setV_dt (s : State) (x : Nibble) (b : Byte) : (s.setV x b).dt = s.dt := rfl
@[simp] theorem State.setV_st (s : State) (x : Nibble) (b : Byte) : (s.setV x b).st = s.st := rfl
@[simp] theorem State.setV_mode (s : State) (x : Nibble) (b : Byte) : (s.setV x b).mode = s.mode := rfl
@[simp] theorem State.setV_waitX (s : State) (x : Nibble) (b : Byte) : (s.setV x b).waitX = s.waitX := rfl
@[simp] theorem State.setV_fb (s : State) (x : Nibble) (b : Byte) : (s.setV x b).fb = s.fb := rfl
@[simp] theorem State.setV_key (s : State) (x : Nibble) (b : Byte) : (s.setV x b).key = s.key := rfl
@[simp] theorem State.setV_mem (s : State) (x : Nibble) (b : Byte) : (s.setV x b).mem = s.mem := rfl
@[simp] theorem State.setV_draws (s : State) (x : Nibble) (b : Byte) : (s.setV x b).draws = s.draws := rfl

@[simp] theorem State.setVF_v (s : State) (f : Byte) : (s.setVF f).v = s.v.set 15 f (by decide) := rfl
@[simp] theorem State.setVF_i (s : State) (f : Byte) : (s.setVF f).i = s.i := rfl
@[simp] theorem State.setVF_pc (s : State) (f : Byte) : (s.setVF f).pc = s.pc := rfl
@[simp] theorem State.setVF_stack (s : State) (f : Byte) : (s.setVF f).stack = s.stack := rfl
@[simp] theorem State.setVF_sp (s : State) (f : Byte) : (s.setVF f).sp = s.sp := rfl
@[simp] theorem State.setVF_dt (s : State) (f : Byte) : (s.setVF f).dt = s.dt := rfl
@[simp] theorem State.setVF_st (s : State) (f : Byte) : (s.setVF f).st = s.st := rfl
@[simp] theorem State.setVF_mode (s : State) (f : Byte) : (s.setVF f).mode = s.mode := rfl
@[simp] theorem State.setVF_waitX (s : State) (f : Byte) : (s.setVF f).waitX = s.waitX := rfl
@[simp] theorem State.setVF_fb (s : State) (f : Byte) : (s.setVF f).fb = s.fb := rfl
@[simp] theorem State.setVF_key (s : State) (f : Byte) : (s.setVF f).key = s.key := rfl
@[simp] theorem State.setVF_mem (s : State) (f : Byte) : (s.setVF f).mem = s.mem := rfl
@[simp] theorem State.setVF_draws (s : State) (f : Byte) : (s.setVF f).draws = s.draws := rfl

@[simp] theorem State.setI_v (s : State) (w : Word) : (s.setI w).v = s.v := rfl
@[simp] theorem State.setI_i (s : State) (w : Word) : (s.setI w).i = w := rfl
@[simp] theorem State.setI_pc (s : State) (w : Word) : (s.setI w).pc = s.pc := rfl
@[simp] theorem State.setI_stack (s : State) (w : Word) : (s.setI w).stack = s.stack := rfl
@[simp] theorem State.setI_sp (s : State) (w : Word) : (s.setI w).sp = s.sp := rfl
@[simp] theorem State.setI_dt (s : State) (w : Word) : (s.setI w).dt = s.dt := rfl
@[simp] theorem State.setI_st (s : State) (w : Word) : (s.setI w).st = s.st := rfl
@[simp] theorem State.setI_mode (s : State) (w : Word) : (s.setI w).mode = s.mode := rfl
@[simp] theorem State.setI_waitX (s : State) (w : Word) : (s.setI w).waitX = s.waitX := rfl
@[simp] theorem State.setI_fb (s : State) (w : Word) : (s.setI w).fb = s.fb := rfl
@[simp] theorem State.setI_key (s : State) (w : Word) : (s.setI w).key = s.key := rfl
@[simp] theorem State.setI_mem (s : State) (w : Word) : (s.setI w).mem = s.mem := rfl
@[simp] theorem State.setI_draws (s : State) (w : Word) : (s.setI w).draws = s.draws := rfl

@[simp] theorem State.setFb_v (s : State) (fb : Framebuffer) : (s.setFb fb).v = s.v := rfl
@[simp] theorem State.setFb_i (s : State) (fb : Framebuffer) : (s.setFb fb).i = s.i := rfl
@[simp] theorem State.setFb_pc (s : State) (fb : Framebuffer) : (s.setFb fb).pc = s.pc := rfl
@[simp] theorem State.setFb_stack (s : State) (fb : Framebuffer) : (s.setFb fb).stack = s.stack := rfl
@[simp] theorem State.setFb_sp (s : State) (fb : Framebuffer) : (s.setFb fb).sp = s.sp := rfl
@[simp] theorem State.setFb_dt (s : State) (fb : Framebuffer) : (s.setFb fb).dt = s.dt := rfl
@[simp] theorem State.setFb_st (s : State) (fb : Framebuffer) : (s.setFb fb).st = s.st := rfl
@[simp] theorem State.setFb_mode (s : State) (fb : Framebuffer) : (s.setFb fb).mode = s.mode := rfl
@[simp] theorem State.setFb_waitX (s : State) (fb : Framebuffer) : (s.setFb fb).waitX = s.waitX := rfl
@[simp] theorem State.setFb_fb (s : State) (fb : Framebuffer) : (s.setFb fb).fb = fb := rfl
@[simp] theorem State.setFb_key (s : State) (fb : Framebuffer) : (s.setFb fb).key = s.key := rfl
@[simp] theorem State.setFb_mem (s : State) (fb : Framebuffer) : (s.setFb fb).mem = s.mem := rfl
@[simp] theorem State.setFb_draws (s : State) (fb : Framebuffer) : (s.setFb fb).draws = s.draws := rfl

@[simp] theorem State.advance_v (s : State) (n : Nat) : (s.advance n).v = s.v := rfl
@[simp] theorem State.advance_i (s : State) (n : Nat) : (s.advance n).i = s.i := rfl
@[simp] theorem State.advance_pc (s : State) (n : Nat) : (s.advance n).pc = s.pc + BitVec.ofNat 16 n := rfl
@[simp] theorem State.advance_stack (s : State) (n : Nat) : (s.advance n).stack = s.stack := rfl
@[simp] theorem State.advance_sp (s : State) (n : Nat) : (s.advance n).sp = s.sp := rfl
@[simp] theorem State.advance_dt (s : State) (n : Nat) : (s.advance n).dt = s.dt := rfl
@[simp] theorem State.advance_st (s : State) (n : Nat) : (s.advance n).st = s.st := rfl
@[simp] theorem State.advance_mode (s : State) (n : Nat) : (s.advance n).mode = s.mode := rfl
@[simp] theorem State.advance_waitX (s : State) (n : Nat) : (s.advance n).waitX = s.waitX := rfl
@[simp] theorem State.advance_fb (s : State) (n : Nat) : (s.advance n).fb = s.fb := rfl
@[simp] theorem State.advance_key (s : State) (n : Nat) : (s.advance n).key = s.key := rfl
@[simp] theorem State.advance_mem (s : State) (n : Nat) : (s.advance n).mem = s.mem := rfl
@[simp] theorem State.advance_draws (s : State) (n : Nat) : (s.advance n).draws = s.draws := rfl

@[simp] theorem State.writeBytes_v (s : State) (a : Nat) (bs : List Byte) : (s.writeBytes a bs).v = s.v := rfl
@[simp] theorem State.writeBytes_i (s : State) (a : Nat) (bs : List Byte) : (s.writeBytes a bs).i = s.i := rfl
@[simp] theorem State.writeBytes_pc (s : State) (a : Nat) (bs : List Byte) : (s.writeBytes a bs).pc = s.pc := rfl
@[simp] theorem State.writeBytes_stack (s : State) (a : Nat) (bs : List Byte) : (s.writeBytes a bs).stack = s.stack := rfl
@[simp] theorem State.writeBytes_sp (s : State) (a : Nat) (bs : List Byte) : (s.writeBytes a bs).sp = s.sp := rfl
@[simp] theorem State.writeBytes_dt (s : State) (a : Nat) (bs : List Byte) : (s.writeBytes a bs).dt = s.dt := rfl
@[simp] theorem State.writeBytes_st (s : State) (a : Nat) (bs : List Byte) : (s.writeBytes a bs).st = s.st := rfl
@[simp] theorem State.writeBytes_mode (s : State) (a : Nat) (bs : List Byte) : (s.writeBytes a bs).mode = s.mode := rfl
@[simp] theorem State.writeBytes_waitX (s : State) (a : Nat) (bs : List Byte) : (s.writeBytes a bs).waitX = s.waitX := rfl
@[simp] theorem State.writeBytes_fb (s : State) (a : Nat) (bs : List Byte) : (s.writeBytes a bs).fb = s.fb := rfl
@[simp] theorem State.writeBytes_key (s : State) (a : Nat) (bs : List Byte) : (s.writeBytes a bs).key = s.key := rfl
@[simp] theorem State.writeBytes_mem (s : State) (a : Nat) (bs : List Byte) : (s.writeBytes a bs).mem = Memory.writeBytes s.mem a bs := rfl
@[simp] theorem State.writeBytes_draws (s : State) (a : Nat) (bs : List Byte) : (s.writeBytes a bs).draws = s.draws := rfl

@[simp] theorem State.postIncI_v (s : State) (x : Nibble) : (s.postIncI x).v = s.v := rfl
@[simp] theorem State.postIncI_i (s : State) (x : Nibble) : (s.postIncI x).i = s.i + BitVec.ofNat 16 (x.toNat + 1) := rfl
@[simp] theorem State.postIncI_pc (s : State) (x : Nibble) : (s.postIncI x).pc = s.pc := rfl
@[simp] theorem State.postIncI_stack (s : State) (x : Nibble) : (s.postIncI x).stack = s.stack := rfl
@[simp] theorem State.postIncI_sp (s : State) (x : Nibble) : (s.postIncI x).sp = s.sp := rfl
@[simp] theorem State.postIncI_dt (s : State) (x : Nibble) : (s.postIncI x).dt = s.dt := rfl
@[simp] theorem State.postIncI_st (s : State) (x : Nibble) : (s.postIncI x).st = s.st := rfl
@[simp] theorem State.postIncI_mode (s : State) (x : Nibble) : (s.postIncI x).mode = s.mode := rfl
@[simp] theorem State.postIncI_waitX (s : State) (x : Nibble) : (s.postIncI x).waitX = s.waitX := rfl
@[simp] theorem State.postIncI_fb (s : State) (x : Nibble) : (s.postIncI x).fb = s.fb := rfl
@[simp] theorem State.postIncI_key (s : State) (x : Nibble) : (s.postIncI x).key = s.key := rfl
@[simp] theorem State.postIncI_mem (s : State) (x : Nibble) : (s.postIncI x).mem = s.mem := rfl
@[simp] theorem State.postIncI_draws (s : State) (x : Nibble) : (s.postIncI x).draws = s.draws := rfl

@[simp] theorem State.setRegs_v (s : State) (bs : List Byte) : (s.setRegs bs).v = s.v.mapFinIdx fun k old _ => bs.getD k old := rfl
@[simp] theorem State.setRegs_i (s : State) (bs : List Byte) : (s.setRegs bs).i = s.i := rfl
@[simp] theorem State.setRegs_pc (s : State) (bs : List Byte) : (s.setRegs bs).pc = s.pc := rfl
@[simp] theorem State.setRegs_stack (s : State) (bs : List Byte) : (s.setRegs bs).stack = s.stack := rfl
@[simp] theorem State.setRegs_sp (s : State) (bs : List Byte) : (s.setRegs bs).sp = s.sp := rfl
@[simp] theorem State.setRegs_dt (s : State) (bs : List Byte) : (s.setRegs bs).dt = s.dt := rfl
@[simp] theorem State.setRegs_st (s : State) (bs : List Byte) : (s.setRegs bs).st = s.st := rfl
@[simp] theorem State.setRegs_mode (s : State) (bs : List Byte) : (s.setRegs bs).mode = s.mode := rfl
@[simp] theorem State.setRegs_waitX (s : State) (bs : List Byte) : (s.setRegs bs).waitX = s.waitX := rfl
@[simp] theorem State.setRegs_fb (s : State) (bs : List Byte) : (s.setRegs bs).fb = s.fb := rfl
@[simp] theorem State.setRegs_key (s : State) (bs : List Byte) : (s.setRegs bs).key = s.key := rfl
@[simp] theorem State.setRegs_mem (s : State) (bs : List Byte) : (s.setRegs bs).mem = s.mem := rfl
@[simp] theorem State.setRegs_draws (s : State) (bs : List Byte) : (s.setRegs bs).draws = s.draws := rfl

@[simp] theorem State.setKey_v (s : State) (k : Nibble) (p : Bool) : (s.setKey k p).v = s.v := rfl
@[simp] theorem State.setKey_i (s : State) (k : Nibble) (p : Bool) : (s.setKey k p).i = s.i := rfl
@[simp] theorem State.setKey_pc (s : State) (k : Nibble) (p : Bool) : (s.setKey k p).pc = s.pc := rfl
@[simp] theorem State.setKey_stack (s : State) (k : Nibble) (p : Bool) : (s.setKey k p).stack = s.stack := rfl
@[simp] theorem State.setKey_sp (s : State) (k : Nibble) (p : Bool) : (s.setKey k p).sp = s.sp := rfl
@[simp] theorem State.setKey_dt (s : State) (k : Nibble) (p : Bool) : (s.setKey k p).dt = s.dt := rfl
@[simp] theorem State.setKey_st (s : State) (k : Nibble) (p : Bool) : (s.setKey k p).st = s.st := rfl
@[simp] theorem State.setKey_mode (s : State) (k : Nibble) (p : Bool) : (s.setKey k p).mode = s.mode := rfl
@[simp] theorem State.setKey_waitX (s : State) (k : Nibble) (p : Bool) : (s.setKey k p).waitX = s.waitX := rfl
@[simp] theorem State.setKey_fb (s : State) (k : Nibble) (p : Bool) : (s.setKey k p).fb = s.fb := rfl
@[simp] theorem State.setKey_key (s : State) (k : Nibble) (p : Bool) : (s.setKey k p).key = s.key.set k.toNat p k.isLt := rfl
@[simp] theorem State.setKey_mem (s : State) (k : Nibble) (p : Bool) : (s.setKey k p).mem = s.mem := rfl
@[simp] theorem State.setKey_draws (s : State) (k : Nibble) (p : Bool) : (s.setKey k p).draws = s.draws := rfl

@[simp] theorem State.tick_v (s : State) : (s.tick).v = s.v := rfl
@[simp] theorem State.tick_i (s : State) : (s.tick).i = s.i := rfl
@[simp] theorem State.tick_pc (s : State) : (s.tick).pc = s.pc := rfl
@[simp] theorem State.tick_stack (s : State) : (s.tick).stack = s.stack := rfl
@[simp] theorem State.tick_sp (s : State) : (s.tick).sp = s.sp := rfl
@[simp] theorem State.tick_dt (s : State) : (s.tick).dt = countDown s.dt := rfl
@[simp] theorem State.tick_st (s : State) : (s.tick).st = countDown s.st := rfl
@[simp] theorem State.tick_mode (s : State) : (s.tick).mode = s.mode := rfl
@[simp] theorem State.tick_waitX (s : State) : (s.tick).waitX = s.waitX := rfl
@[simp] theorem State.tick_fb (s : State) : (s.tick).fb = s.fb := rfl
@[simp] theorem State.tick_key (s : State) : (s.tick).key = s.key := rfl
@[simp] theorem State.tick_mem (s : State) : (s.tick).mem = s.mem := rfl
@[simp] theorem State.tick_draws (s : State) : (s.tick).draws = s.draws := rfl

@[simp] theorem State.setResultFlag_i (s : State) (o : Config.VfOrder) (x : Nibble) (r f : Byte) : (s.setResultFlag o x r f).i = s.i := by cases o <;> rfl
@[simp] theorem State.setResultFlag_pc (s : State) (o : Config.VfOrder) (x : Nibble) (r f : Byte) : (s.setResultFlag o x r f).pc = s.pc := by cases o <;> rfl
@[simp] theorem State.setResultFlag_stack (s : State) (o : Config.VfOrder) (x : Nibble) (r f : Byte) : (s.setResultFlag o x r f).stack = s.stack := by cases o <;> rfl
@[simp] theorem State.setResultFlag_sp (s : State) (o : Config.VfOrder) (x : Nibble) (r f : Byte) : (s.setResultFlag o x r f).sp = s.sp := by cases o <;> rfl
@[simp] theorem State.setResultFlag_dt (s : State) (o : Config.VfOrder) (x : Nibble) (r f : Byte) : (s.setResultFlag o x r f).dt = s.dt := by cases o <;> rfl
@[simp] theorem State.setResultFlag_st (s : State) (o : Config.VfOrder) (x : Nibble) (r f : Byte) : (s.setResultFlag o x r f).st = s.st := by cases o <;> rfl
@[simp] theorem State.setResultFlag_mode (s : State) (o : Config.VfOrder) (x : Nibble) (r f : Byte) : (s.setResultFlag o x r f).mode = s.mode := by cases o <;> rfl
@[simp] theorem State.setResultFlag_waitX (s : State) (o : Config.VfOrder) (x : Nibble) (r f : Byte) : (s.setResultFlag o x r f).waitX = s.waitX := by cases o <;> rfl
@[simp] theorem State.setResultFlag_fb (s : State) (o : Config.VfOrder) (x : Nibble) (r f : Byte) : (s.setResultFlag o x r f).fb = s.fb := by cases o <;> rfl
@[simp] theorem State.setResultFlag_key (s : State) (o : Config.VfOrder) (x : Nibble) (r f : Byte) : (s.setResultFlag o x r f).key = s.key := by cases o <;> rfl
@[simp] theorem State.setResultFlag_mem (s : State) (o : Config.VfOrder) (x : Nibble) (r f : Byte) : (s.setResultFlag o x r f).mem = s.mem := by cases o <;> rfl
@[simp] theorem State.setResultFlag_draws (s : State) (o : Config.VfOrder) (x : Nibble) (r f : Byte) : (s.setResultFlag o x r f).draws = s.draws := by cases o <;> rfl

end Sys2Proof.Machine
end

