-- ==== Sys2Proof/Laws/Memory.lean ====
section
/-! SUPPORT. Memory: a read after a write (spec/20_memory.md R53), and that every memory operation keeps the canonical
form. -/

namespace Sys2Proof.Machine

/-! ## Reads -/

/-- In a list of rising addresses all above `a`, `a` is unlisted. -/
theorem Memory.read_of_forall_lt {m : List Host.Cell} {a : Nat} (h : ∀ c ∈ m, a < c.1) :
    Memory.read m a = resetByte a := by
  induction m with
  | nil => rfl
  | cons c m ih =>
    have hc := h c (by simp)
    rw [Memory.read, if_neg (by omega), ih fun d hd => h d (by simp [hd])]

theorem Memory.read_insert (m : List Host.Cell) (a k : Nat) (b : Byte) :
    Memory.read (Memory.insert m a b) k = if k = a then b else Memory.read m k := by
  induction m with
  | nil =>
    rcases eq_or_ne k a with h | h
    · simp [Memory.insert, Memory.read, h]
    · simp [Memory.insert, Memory.read, h, h.symm]
  | cons c m ih =>
    simp only [Memory.insert]
    split
    · rcases eq_or_ne k a with h | h
      · simp [Memory.read, h]
      · simp [Memory.read, h, h.symm]
    · split
      · rcases eq_or_ne k a with h | h
        · simp [Memory.read, h]
        · simp_all [Memory.read, Ne.symm h]
      · simp only [Memory.read, ih]
        split <;> simp_all

theorem Memory.read_erase {m : List Host.Cell} (hm : m.Pairwise fun c d => c.1 < d.1) (a k : Nat) :
    Memory.read (Memory.erase m a) k = if k = a then resetByte a else Memory.read m k := by
  induction m with
  | nil => simp only [Memory.erase, Memory.read]; split <;> simp_all
  | cons c m ih =>
    obtain ⟨hc, hm⟩ := List.pairwise_cons.1 hm
    simp only [Memory.erase]
    split
    · next h =>
      rcases eq_or_ne k a with hk | hk
      · subst hk
        rw [if_pos rfl]
        exact Memory.read_of_forall_lt fun d hd => h ▸ hc d hd
      · simp [Memory.read, hk, h, hk.symm]
    · simp only [Memory.read, ih hm]
      split <;> simp_all

/-- A read after a write: the value written at its address, what was there everywhere else (20_memory R53). -/
theorem Memory.read_write {m : List Host.Cell} (hm : Memory.wf m) (a k : Nat) (b : Byte) :
    Memory.read (Memory.write m a b) k = if k = a then b else Memory.read m k := by
  unfold Memory.write
  split
  · next h => rw [Memory.read_erase hm.1, h]
  · exact Memory.read_insert m a k b

/-! ## The canonical form -/

theorem Memory.mem_insert {m : List Host.Cell} {a : Nat} {b : Byte} {c : Host.Cell} (h : c ∈ Memory.insert m a b) :
    c = (a, b) ∨ c ∈ m := by
  induction m with
  | nil => simpa [Memory.insert] using h
  | cons d m ih =>
    simp only [Memory.insert] at h
    split at h
    · simpa using h
    · split at h
      · rcases List.mem_cons.1 h with h | h <;> simp [h]
      · rcases List.mem_cons.1 h with h | h
        · simp [h]
        · rcases ih h with h | h <;> simp [h]

theorem Memory.mem_erase {m : List Host.Cell} {a : Nat} {c : Host.Cell} (h : c ∈ Memory.erase m a) : c ∈ m := by
  induction m with
  | nil => simp [Memory.erase] at h
  | cons d m ih =>
    simp only [Memory.erase] at h
    split at h
    · simp [h]
    · rcases List.mem_cons.1 h with h | h
      · simp [h]
      · simp [ih h]

theorem Memory.insert_pairwise {m : List Host.Cell} (hm : m.Pairwise fun c d => c.1 < d.1) (a : Nat) (b : Byte) :
    (Memory.insert m a b).Pairwise fun c d => c.1 < d.1 := by
  induction m with
  | nil => simp [Memory.insert]
  | cons c m ih =>
    obtain ⟨hc, hm⟩ := List.pairwise_cons.1 hm
    simp only [Memory.insert]
    split
    · next h =>
      refine List.pairwise_cons.2 ⟨fun d hd => ?_, List.pairwise_cons.2 ⟨hc, hm⟩⟩
      rcases List.mem_cons.1 hd with rfl | hd
      · exact h
      · exact h.trans (hc d hd)
    · split
      · next h => exact List.pairwise_cons.2 ⟨fun d hd => h ▸ hc d hd, hm⟩
      · refine List.pairwise_cons.2 ⟨fun d hd => ?_, ih hm⟩
        rcases Memory.mem_insert hd with rfl | hd
        · simp only; omega
        · exact hc d hd

theorem Memory.erase_pairwise {m : List Host.Cell} (hm : m.Pairwise fun c d => c.1 < d.1) (a : Nat) :
    (Memory.erase m a).Pairwise fun c d => c.1 < d.1 := by
  induction m with
  | nil => simp [Memory.erase]
  | cons c m ih =>
    obtain ⟨hc, hm⟩ := List.pairwise_cons.1 hm
    simp only [Memory.erase]
    split
    · exact hm
    · exact List.pairwise_cons.2 ⟨fun d hd => hc d (Memory.mem_erase hd), ih hm⟩

/-- A write to an address that exists keeps the canonical form. -/
theorem Memory.write_wf {m : List Host.Cell} (hm : Memory.wf m) {a : Nat} (ha : a < Config.memSize) (b : Byte) :
    Memory.wf (Memory.write m a b) := by
  unfold Memory.write
  split
  · exact ⟨Memory.erase_pairwise hm.1 a, fun c hc => hm.2 c (Memory.mem_erase hc)⟩
  · next hb =>
    refine ⟨Memory.insert_pairwise hm.1 a b, fun c hc => ?_⟩
    rcases Memory.mem_insert hc with rfl | hc
    · exact ⟨ha, hb⟩
    · exact hm.2 c hc

/-- Writing bytes to addresses that exist keeps the canonical form. -/
theorem Memory.writeBytes_wf {m : List Host.Cell} (hm : Memory.wf m) (bs : List Byte) {a : Nat}
    (ha : a + bs.length ≤ Config.memSize) : Memory.wf (Memory.writeBytes m a bs) := by
  induction bs generalizing m a with
  | nil => exact hm
  | cons b bs ih =>
    simp only [List.length_cons] at ha
    exact ih (Memory.write_wf hm (by omega) b) (by omega)

/-- A read after a run of writes: the byte of the run, or what was there (20_memory R51, R53). -/
theorem Memory.read_writeBytes {m : List Host.Cell} (hm : Memory.wf m) (bs : List Byte) {a : Nat}
    (ha : a + bs.length ≤ Config.memSize) (k : Nat) :
    Memory.read (Memory.writeBytes m a bs) k
      = if a ≤ k ∧ k < a + bs.length then bs.getD (k - a) 0 else Memory.read m k := by
  induction bs generalizing m a with
  | nil => simp only [Memory.writeBytes, List.length_nil]; rw [if_neg (by omega)]
  | cons b bs ih =>
    simp only [List.length_cons] at ha
    rw [Memory.writeBytes, ih (Memory.write_wf hm (by omega) b) (by omega), Memory.read_write hm, List.length_cons]
    by_cases h : a + 1 ≤ k ∧ k < a + 1 + bs.length
    · rw [if_pos h, if_pos (by omega), show k - a = k - (a + 1) + 1 by omega, List.getD_cons_succ]
    · rw [if_neg h]
      by_cases hk : k = a
      · rw [if_pos hk, if_pos (by omega), hk, Nat.sub_self, List.getD_cons_zero]
      · rw [if_neg hk, if_neg (by omega)]

/-- Outside the addresses written nothing changes, whatever the memory. -/
theorem Memory.read_write_of_ne (m : List Host.Cell) {a k : Nat} (h : k ≠ a) (b : Byte) :
    Memory.read (Memory.write m a b) k = Memory.read m k := by
  unfold Memory.write
  split
  · clear * - h
    induction m with
    | nil => rfl
    | cons c m ih =>
      simp only [Memory.erase]
      split
      · next hc => rw [Memory.read, if_neg (by omega)]
      · simp only [Memory.read, ih]
  · rw [Memory.read_insert, if_neg h]

theorem Memory.read_writeBytes_of_outside (m : List Host.Cell) (bs : List Byte) {a k : Nat}
    (h : k < a ∨ a + bs.length ≤ k) : Memory.read (Memory.writeBytes m a bs) k = Memory.read m k := by
  induction bs generalizing m a with
  | nil => rfl
  | cons b bs ih =>
    simp only [List.length_cons] at h
    rw [Memory.writeBytes, ih _ (by omega), Memory.read_write_of_ne m (by omega)]

/-! ## Runs of bytes -/

@[simp] theorem Memory.length_readBytes (m : List Host.Cell) (a n : Nat) : (Memory.readBytes m a n).length = n := by
  induction n generalizing a with
  | zero => rfl
  | succ n ih => simp [Memory.readBytes, ih]

theorem Memory.getElem?_readBytes (m : List Host.Cell) (a n k : Nat) :
    (Memory.readBytes m a n)[k]? = if k < n then some (Memory.read m (a + k)) else none := by
  induction n generalizing a k with
  | zero => simp [Memory.readBytes]
  | succ n ih =>
    cases k with
    | zero => simp [Memory.readBytes]
    | succ k => simp [Memory.readBytes, ih, Nat.add_assoc, Nat.add_comm 1 k]

theorem Memory.getD_readBytes (m : List Host.Cell) (a n k : Nat) (d : Byte) :
    (Memory.readBytes m a n).getD k d = if k < n then Memory.read m (a + k) else d := by
  rw [List.getD_eq_getElem?_getD, Memory.getElem?_readBytes]
  split <;> rfl

/-! ## In states -/

@[simp] theorem State.readByte_setV (s : State) (x : Nibble) (b : Byte) (a : Nat) : (s.setV x b).readByte a = s.readByte a := rfl
@[simp] theorem State.readByte_setVF (s : State) (f : Byte) (a : Nat) : (s.setVF f).readByte a = s.readByte a := rfl
@[simp] theorem State.readByte_setI (s : State) (w : Word) (a : Nat) : (s.setI w).readByte a = s.readByte a := rfl
@[simp] theorem State.readByte_setFb (s : State) (fb : Framebuffer) (a : Nat) : (s.setFb fb).readByte a = s.readByte a := rfl
@[simp] theorem State.readByte_advance (s : State) (n a : Nat) : (s.advance n).readByte a = s.readByte a := rfl
@[simp] theorem State.readByte_postIncI (s : State) (x : Nibble) (a : Nat) : (s.postIncI x).readByte a = s.readByte a := rfl
@[simp] theorem State.readByte_setRegs (s : State) (bs : List Byte) (a : Nat) : (s.setRegs bs).readByte a = s.readByte a := rfl

@[simp] theorem length_bcdDigits (v : Byte) : (bcdDigits v).length = 3 := rfl

@[simp] theorem State.length_regsTo (s : State) (x : Nibble) : (s.regsTo x).length = x.toNat + 1 := by
  have := x.isLt
  simp [State.regsTo]
  omega

theorem State.getD_regsTo (s : State) (x k : Nibble) (h : k.toNat ≤ x.toNat) (d : Byte) :
    (s.regsTo x).getD k.toNat d = s.getV k := by
  have := k.isLt
  rw [List.getD_eq_getElem?_getD, State.regsTo, List.getElem?_take, if_pos (by omega)]
  simp [State.getV, Vector.getElem?_eq_getElem (show k.toNat < 16 from k.isLt)]

theorem reset_mem_wf : Memory.wf State.reset.mem := by decide

end Sys2Proof.Machine
end

