-- ==== Sys2Proof/Laws/Registers.lean ====
section
/-! SUPPORT. The general registers: a read after a write, and what the two writes of a flag-writing instruction leave
(spec/10_state.md R21, R22; 41_alu R131). -/

namespace Sys2Proof.Machine

theorem State.getV_congr {s t : State} (h : t.v = s.v) (k : Nibble) : t.getV k = s.getV k := by
  simp [State.getV, h]

@[simp] theorem State.getV_setV (s : State) (x k : Nibble) (b : Byte) :
    (s.setV x b).getV k = if k = x then b else s.getV k := by
  have hk := k.isLt
  have hx := x.isLt
  simp only [State.getV, State.setV_v, Vector.getElem_set]
  by_cases h : x.toNat = k.toNat
  · have : k = x := BitVec.eq_of_toNat_eq h.symm
    simp [this]
  · have : k ≠ x := fun e => h (by rw [e])
    simp [h, this]

@[simp] theorem State.getV_setVF (s : State) (k : Nibble) (f : Byte) :
    (s.setVF f).getV k = if k = vF then f else s.getV k := State.getV_setV s vF k f

@[simp] theorem State.getV_advance (s : State) (n : Nat) (k : Nibble) : (s.advance n).getV k = s.getV k := rfl
@[simp] theorem State.getV_setI (s : State) (w : Word) (k : Nibble) : (s.setI w).getV k = s.getV k := rfl
@[simp] theorem State.getV_setFb (s : State) (fb : Framebuffer) (k : Nibble) : (s.setFb fb).getV k = s.getV k := rfl
@[simp] theorem State.getV_postIncI (s : State) (x k : Nibble) : (s.postIncI x).getV k = s.getV k := rfl
@[simp] theorem State.getV_writeBytes (s : State) (a : Nat) (bs : List Byte) (k : Nibble) :
    (s.writeBytes a bs).getV k = s.getV k := rfl

/-- Where the flag is written last, VF is the flag and V[x] the result for every other x (R131). -/
theorem State.getV_setResultFlag_flagLast (s : State) (x k : Nibble) (r f : Byte) :
    (s.setResultFlag .flagLast x r f).getV k = if k = vF then f else if k = x then r else s.getV k := by
  simp [State.setResultFlag]

/-- Where the result is written last, V[x] is the result and VF the flag unless x is F (R131). -/
theorem State.getV_setResultFlag_resultLast (s : State) (x k : Nibble) (r f : Byte) :
    (s.setResultFlag .resultLast x r f).getV k = if k = x then r else if k = vF then f else s.getV k := by
  simp [State.setResultFlag]

/-- Two register files with equal reads are equal. -/
theorem State.v_ext {s t : State} (h : ∀ k, s.getV k = t.getV k) : s.v = t.v := by
  apply Vector.ext
  intro n hn
  have := h (BitVec.ofNat 4 n)
  simpa [State.getV, Nat.mod_eq_of_lt hn] using this

/-- A loaded register is the byte of its number, one above the last keeps its value (42_index_memory R146). -/
theorem State.getV_setRegs (s : State) (bs : List Byte) (k : Nibble) :
    (s.setRegs bs).getV k = bs.getD k.toNat (s.getV k) := by
  simp [State.getV]

end Sys2Proof.Machine
end

