-- ==== Sys2Proof/Laws/Display.lean ====
section
/-! SUPPORT. The framebuffer: a pixel after a write, what a draw loop over distinct pixels leaves (spec/43_display.md
R161), and which pixels a sprite covers. -/

namespace Sys2Proof.Machine

theorem Framebuffer.pixel_setPixel (fb : Framebuffer) (x x' : Fin 64) (y y' : Fin 32) (b : Bool) :
    Framebuffer.pixel (Framebuffer.setPixel fb x y b) x' y' = if x' = x ∧ y' = y then b else fb.pixel x' y' := by
  simp only [Framebuffer.pixel, Framebuffer.setPixel, Vector.getElem_set]
  by_cases hy : y = y'
  · subst hy
    by_cases hx : x = x'
    · subst hx; simp
    · simp [Fin.val_inj, hx, Ne.symm hx]
  · simp [Fin.val_inj, hy, Ne.symm hy]

@[simp] theorem Framebuffer.pixel_blank (x : Fin 64) (y : Fin 32) : Framebuffer.blank.pixel x y = false := by
  simp [Framebuffer.pixel, Framebuffer.blank]

/-- Two framebuffers with equal pixels are equal. -/
theorem Framebuffer.ext_pixel {f g : Framebuffer} (h : ∀ x y, f.pixel x y = g.pixel x y) : f = g := by
  apply Vector.ext
  intro r hr
  apply Vector.ext
  intro c hc
  exact h ⟨c, hc⟩ ⟨r, hr⟩

theorem pixel_togglePixel (acc : Framebuffer × Bool) (p q : Fin 64 × Fin 32) :
    (togglePixel acc p).1.pixel q.1 q.2 = (acc.1.pixel q.1 q.2 ^^ decide (q = p)) := by
  simp only [togglePixel, Framebuffer.pixel_setPixel]
  by_cases h : q = p
  · simp [h]
  · have : ¬(q.1 = p.1 ∧ q.2 = p.2) := fun e => h (Prod.ext e.1 e.2)
    simp [this, h]

/-- The draw loop over distinct pixels from any start: the pixels of the list are inverted, no other changes, and the
flag is raised when one of them was set (R161, R162). -/
theorem foldl_togglePixel {ps : List (Fin 64 × Fin 32)} (hps : ps.Nodup) (acc : Framebuffer × Bool) :
    (∀ q, (ps.foldl togglePixel acc).1.pixel q.1 q.2 = (acc.1.pixel q.1 q.2 ^^ decide (q ∈ ps)))
      ∧ (ps.foldl togglePixel acc).2 = (acc.2 || ps.any fun p => acc.1.pixel p.1 p.2) := by
  induction ps generalizing acc with
  | nil => simp
  | cons p ps ih =>
    obtain ⟨hp, hps⟩ := List.nodup_cons.1 hps
    obtain ⟨h1, h2⟩ := ih hps (togglePixel acc p)
    refine ⟨fun q => ?_, ?_⟩
    · rw [List.foldl_cons, h1, pixel_togglePixel]
      by_cases hq : q = p
      · simp [hq, hp]
      · simp [hq]
    · rw [List.foldl_cons, h2, List.any_cons, ← Bool.or_assoc]
      congr 1
      refine Bool.eq_iff_iff.2 ?_
      simp only [List.any_eq_true]
      refine ⟨?_, ?_⟩
      · rintro ⟨q, hq, h⟩
        rw [pixel_togglePixel] at h
        have : q ≠ p := fun e => hp (e ▸ hq)
        exact ⟨q, hq, by simpa [this] using h⟩
      · rintro ⟨q, hq, h⟩
        have : q ≠ p := fun e => hp (e ▸ hq)
        exact ⟨q, hq, by rw [pixel_togglePixel]; simpa [this] using h⟩

/-- The whole draw over distinct pixels. -/
theorem drawPixels_spec {ps : List (Fin 64 × Fin 32)} (hps : ps.Nodup) (fb : Framebuffer) :
    (∀ q, (drawPixels fb ps).1.pixel q.1 q.2 = (fb.pixel q.1 q.2 ^^ decide (q ∈ ps)))
      ∧ (drawPixels fb ps).2 = ps.any fun p => fb.pixel p.1 p.2 := by
  simpa [drawPixels] using foldl_togglePixel hps (fb, false)

@[simp] theorem drawPixels_nil (fb : Framebuffer) : drawPixels fb [] = (fb, false) := rfl

theorem mem_rowPixels {msbLeft : Bool} {b : Byte} {x0 y : Nat} {q : Fin 64 × Fin 32} :
    q ∈ rowPixels msbLeft b x0 y
      ↔ ∃ col < 8, spriteBit msbLeft b col = true ∧ q = (Fin.ofNat 64 (x0 + col), Fin.ofNat 32 y) := by
  simp only [rowPixels, List.mem_map, List.mem_filter, List.mem_range, and_assoc]
  exact exists_congr fun col => and_congr_right fun _ => and_congr_right fun _ => eq_comm

/-- A pixel is covered when some row's byte has a bit whose wrapped coordinates are its own (R161). -/
theorem mem_spritePixels {msbLeft : Bool} {x0 y0 : Nat} {bs : List Byte} {q : Fin 64 × Fin 32} :
    q ∈ spritePixels msbLeft x0 y0 bs
      ↔ ∃ row b, bs[row]? = some b ∧ ∃ col < 8, spriteBit msbLeft b col = true
          ∧ q = (Fin.ofNat 64 (x0 + col), Fin.ofNat 32 (y0 + row)) := by
  induction bs generalizing y0 with
  | nil => simp [spritePixels]
  | cons b bs ih =>
    simp only [spritePixels, List.mem_append, mem_rowPixels, ih]
    refine ⟨?_, ?_⟩
    · rintro (h | ⟨row, b', hb, col, hc, h, rfl⟩)
      · exact ⟨0, b, by simp, by simpa using h⟩
      · exact ⟨row + 1, b', by simpa using hb, col, hc, h, by rw [show y0 + (row + 1) = y0 + 1 + row by omega]⟩
    · rintro ⟨row, b', hb, col, hc, h, rfl⟩
      cases row with
      | zero =>
        obtain rfl : b = b' := by simpa using hb
        exact .inl ⟨col, hc, h, rfl⟩
      | succ row =>
        exact .inr ⟨row, b', by simpa using hb, col, hc, h, by rw [show y0 + 1 + row = y0 + (row + 1) by omega]⟩

end Sys2Proof.Machine
end

