-- ==== Sys2Proof/Laws/Ops.lean ====
section
/-! SUPPORT. What each shared operation can answer, said once: the bounds check, the call stack, the key operand, the
least key, and the endings of an instruction. -/

namespace Sys2Proof.Machine

/-! ## The bounds check (spec/20_memory.md R55, R56) -/

theorem accessFault_eq_none {base n : Nat} : accessFault base n = none ↔ n = 0 ∨ base + n ≤ 4096 := by
  simp only [accessFault, Config.memSize]
  split
  · next h => simp; omega
  · next h => simp; omega

theorem accessFault_eq_some {base n : Nat} {f : Fault} :
    accessFault base n = some f ↔ (0 < n ∧ 4096 < base + n) ∧ f = .outOfBoundsAccess (max base 4096) := by
  simp only [accessFault, Config.memSize]
  split
  · next h => simp [eq_comm]; intro; exact h
  · next h => simp only [reduceCtorEq, false_iff, not_and]; intro h'; exact absurd h' h

theorem atI_of_inBounds {s : State} {n : Nat} (h : n = 0 ∨ s.i.toNat + n ≤ 4096) (body : Result) : atI s n body = body := by
  rw [atI, accessFault_eq_none.2 h]

theorem atI_of_outOfBounds {s : State} {n : Nat} (h : 0 < n ∧ 4096 < s.i.toNat + n) (body : Result) :
    atI s n body = .fault (.outOfBoundsAccess (max s.i.toNat 4096)) := by
  rw [atI, accessFault_eq_some.2 ⟨h, rfl⟩]; rfl

theorem atI_eq_next {s t : State} {n : Nat} {body : Result} :
    atI s n body = .next t ↔ (n = 0 ∨ s.i.toNat + n ≤ 4096) ∧ body = .next t := by
  by_cases h : n = 0 ∨ s.i.toNat + n ≤ 4096
  · simp [atI_of_inBounds h, h]
  · simp [atI_of_outOfBounds (show 0 < n ∧ 4096 < s.i.toNat + n by omega), h]

/-! ## Endings -/

theorem finish_eq_next {s t : State} : finish s = .next t ↔ t = s.advance 2 := by simp [finish, eq_comm]

theorem loadV_eq_next {x : Nibble} {b : Byte} {s t : State} :
    loadV x b s = .next t ↔ t = (s.setV x b).advance 2 := finish_eq_next

theorem loadVFlag_eq_next {x : Nibble} {r f : Byte} {s t : State} :
    loadVFlag x r f s = .next t ↔ t = (s.setResultFlag Params.vfOrder x r f).advance 2 := finish_eq_next

theorem skipIf_eq_next {c : Bool} {s t : State} :
    skipIf c s = .next t ↔ t = s.advance (if c then 4 else 2) := by simp [skipIf, eq_comm]

theorem jumpTo_eq_next {w : Word} {s t : State} : jumpTo w s = .next t ↔ t = { s with pc := w } := by
  simp [jumpTo, eq_comm]

/-! ## Call stack (spec/10_state.md R28, R29) -/

theorem State.push_eq_some {s t : State} {w : Word} :
    s.push w = some t ↔ ∃ h : s.sp.val < 16,
      t = { s with stack := s.stack.set s.sp.val w h, sp := ⟨s.sp.val + 1, by omega⟩ } := by
  unfold State.push
  split
  · next h => simp [h, eq_comm]
  · next h => simp [h]

theorem State.push_eq_none {s : State} {w : Word} : s.push w = none ↔ s.sp.val = 16 := by
  unfold State.push
  have := s.sp.isLt
  split
  · next h => simp; omega
  · next h => simp; omega

theorem State.pop_eq_some {s t : State} {w : Word} :
    s.pop = some (w, t) ↔ ∃ h : 0 < s.sp.val,
      w = s.stack[s.sp.val - 1]'(by omega) ∧ t = { s with sp := ⟨s.sp.val - 1, by omega⟩ } := by
  unfold State.pop
  split
  · next h => simp [h, eq_comm]
  · next h => simp [h]

theorem State.pop_eq_none {s : State} : s.pop = none ↔ s.sp.val = 0 := by
  unfold State.pop
  split
  · next h => simp; omega
  · next h => simp; omega

/-! ## The key operand and the least key (spec/44_keypad_timers.md R170, R173) -/

theorem keyIndex_of_le {p : Config.KeyIndexPolicy} {k : Byte} (h : k.toNat ≤ 15) : keyIndex p k = .ok (k.setWidth 4) := by
  simp [keyIndex, h]

theorem keyIndex_fault_of_gt {k : Byte} (h : 15 < k.toNat) : keyIndex .fault k = .error (.keyIndexOutOfRange k) := by
  simp [keyIndex, show ¬k.toNat ≤ 15 by omega]

theorem keyIndex_mask (k : Byte) : keyIndex .mask k = .ok (k.setWidth 4) := by
  unfold keyIndex; split <;> rfl

theorem skipOnKey_eq_next {x : Nibble} {want : Bool} {s t : State} :
    skipOnKey x want s = .next t ↔
      ∃ k, keyIndex Params.keyIndexPolicy (s.getV x) = .ok k ∧ t = s.advance (if s.keySet k = want then 4 else 2) := by
  unfold skipOnKey
  cases keyIndex Params.keyIndexPolicy (s.getV x) with
  | ok k => simp [skipIf_eq_next]
  | error f => simp [raise]

theorem State.keySet_congr {s t : State} (h : t.key = s.key) (k : Nibble) : t.keySet k = s.keySet k := by
  simp [State.keySet, h]

theorem State.leastKey_eq_none {s : State} : s.leastKey = none ↔ ∀ k, s.keySet k = false := by
  simp only [State.leastKey, Option.map_eq_none_iff, List.findIdx?_eq_none_iff, State.keySet]
  constructor
  · intro h k
    simpa using h _ (Vector.mem_toList_iff.2 (Vector.getElem_mem (xs := s.key) (i := k.toNat) k.isLt))
  · intro h b hb
    obtain ⟨i, hi, rfl⟩ := Vector.getElem_of_mem (Vector.mem_toList_iff.1 hb)
    have := h (BitVec.ofNat 4 i)
    simpa [Nat.mod_eq_of_lt hi] using this

theorem State.leastKey_eq_some {s : State} {k : Nibble} :
    s.leastKey = some k ↔ s.keySet k = true ∧ ∀ j : Nibble, j.toNat < k.toNat → s.keySet j = false := by
  simp only [State.leastKey, Option.map_eq_some_iff, List.findIdx?_eq_some_iff_getElem, State.keySet, Vector.getElem_toList]
  constructor
  · rintro ⟨i, ⟨hi, h, hlt⟩, rfl⟩
    have hi' : i < 16 := by simpa using hi
    have e : (BitVec.ofNat 4 i).toNat = i := by simp [Nat.mod_eq_of_lt hi']
    refine ⟨by simpa [e] using h, fun j hj => ?_⟩
    rw [e] at hj
    simpa using hlt j.toNat hj
  · rintro ⟨h, hlt⟩
    have hk := k.isLt
    refine ⟨k.toNat, ⟨by simpa using hk, by simpa using h, fun j hj => ?_⟩, by simp⟩
    have hj' : j < 16 := by omega
    have e : (BitVec.ofNat 4 j).toNat = j := by simp [Nat.mod_eq_of_lt hj']
    have := hlt (BitVec.ofNat 4 j) (by rw [e]; exact hj)
    simpa [e] using this

theorem waitStep_eq_next {s t : State} :
    waitStep s = .next t ↔
      (s.leastKey = none ∧ t = s)
        ∨ ∃ k, s.leastKey = some k ∧ t = ({ s with mode := .running }.setV s.waitX (k.setWidth 8)).advance 2 := by
  unfold waitStep
  cases h : s.leastKey with
  | none => simp [eq_comm]
  | some k => simp [finish_eq_next]

end Sys2Proof.Machine
end

