-- ==== Sys2Proof/Laws/Exec.lean ====
section
/-! SUPPORT. One inversion lemma per instruction: when its meaning answers a next state, and which. Later proofs cite
these (after `cases i` and `exec`) and never unfold a meaning. -/

namespace Sys2Proof.Machine

section Inversions

variable {x y n : Nibble} {nn : Byte} {nnn : Addr12} {s t : State}

theorem execCls_next : execCls s = .next t ↔ t = (s.setFb Framebuffer.blank).advance 2 := finish_eq_next

theorem execRet_next : execRet s = .next t ↔ ∃ h : 0 < s.sp.val,
    t = { s with sp := ⟨s.sp.val - 1, by omega⟩, pc := s.stack[s.sp.val - 1]'(by omega) + 2 } := by
  unfold execRet
  cases h : s.pop with
  | none =>
    have := State.pop_eq_none.1 h
    refine iff_of_false (by simp [raise]) ?_
    rintro ⟨h0, -⟩
    omega
  | some p =>
    obtain ⟨h0, hw, hs⟩ := State.pop_eq_some.1 h
    simp only [jumpTo_eq_next, hw, hs, h0, exists_true_left]

theorem execJp_next : execJp nnn s = .next t ↔ t = { s with pc := zext16 nnn } := jumpTo_eq_next

theorem execCall_next : execCall nnn s = .next t ↔ ∃ h : s.sp.val < 16,
    t = { s with stack := s.stack.set s.sp.val s.pc h, sp := ⟨s.sp.val + 1, by omega⟩, pc := zext16 nnn } := by
  unfold execCall
  cases h : s.push s.pc with
  | none =>
    have := State.push_eq_none.1 h
    refine iff_of_false (by simp [raise]) ?_
    rintro ⟨h0, -⟩
    omega
  | some p =>
    obtain ⟨h0, hs⟩ := State.push_eq_some.1 h
    simp only [jumpTo_eq_next, hs, h0, exists_true_left]

theorem execJpv0_next : execJpv0 nnn s = .next t ↔ t = { s with pc := zext16 nnn + (s.getV 0x0#4).setWidth 16 } :=
  jumpTo_eq_next

theorem execSei_next : execSei x nn s = .next t ↔ t = s.advance (if s.getV x = nn then 4 else 2) := by
  simp [execSei, skipIf_eq_next]

theorem execSnei_next : execSnei x nn s = .next t ↔ t = s.advance (if s.getV x ≠ nn then 4 else 2) := by
  simp [execSnei, skipIf_eq_next]

theorem execSer_next : execSer x y s = .next t ↔ t = s.advance (if s.getV x = s.getV y then 4 else 2) := by
  simp [execSer, skipIf_eq_next]

theorem execSner_next : execSner x y s = .next t ↔ t = s.advance (if s.getV x ≠ s.getV y then 4 else 2) := by
  simp [execSner, skipIf_eq_next]

theorem execLdi_next : execLdi x nn s = .next t ↔ t = (s.setV x nn).advance 2 := loadV_eq_next

theorem execAddi_next : execAddi x nn s = .next t
    ↔ t = (s.setV x (BitVec.ofNat 8 ((s.getV x).toNat + nn.toNat))).advance 2 := loadV_eq_next

theorem execMov_next : execMov x y s = .next t ↔ t = (s.setV x (s.getV y)).advance 2 := loadV_eq_next

theorem execOr_next : execOr x y s = .next t ↔ t = (s.setV x (s.getV x ||| s.getV y)).advance 2 := loadV_eq_next

theorem execAnd_next : execAnd x y s = .next t ↔ t = (s.setV x (s.getV x &&& s.getV y)).advance 2 := loadV_eq_next

theorem execXor_next : execXor x y s = .next t ↔ t = (s.setV x (s.getV x ^^^ s.getV y)).advance 2 := loadV_eq_next

theorem execAdd_next : execAdd x y s = .next t ↔ t = (s.setResultFlag Params.vfOrder x
    (BitVec.ofNat 8 ((s.getV x).toNat + (s.getV y).toNat)) (carryFlag (s.getV x) (s.getV y))).advance 2 := loadVFlag_eq_next

theorem execSub_next : execSub x y s = .next t ↔ t = (s.setResultFlag Params.vfOrder x
    (s.getV x - s.getV y) (noBorrowFlag (s.getV x) (s.getV y))).advance 2 := loadVFlag_eq_next

theorem execShr_next : execShr x y s = .next t ↔ t = (s.setResultFlag Params.vfOrder x
    (s.getV x >>> 1) (shiftedOutRight (s.getV x))).advance 2 := loadVFlag_eq_next

theorem execShl_next : execShl x y s = .next t ↔ t = (s.setResultFlag Params.vfOrder x
    (s.getV x <<< 1) (shiftedOutLeft (s.getV x))).advance 2 := loadVFlag_eq_next

theorem execRnd_next : execRnd x nn s = .next t
    ↔ t = (State.setV { s with draws := s.draws + 1 } x (Config.randomDraw s.draws &&& nn)).advance 2 := loadV_eq_next

theorem execSeti_next : execSeti nnn s = .next t ↔ t = (s.setI (zext16 nnn)).advance 2 := finish_eq_next

theorem execAdi_next : execAdi x s = .next t ↔ t = ((s.setI (BitVec.ofNat 16 (s.i.toNat + (s.getV x).toNat))).setVF
    (indexOverflowFlag s.i (s.getV x))).advance 2 := finish_eq_next

theorem execFont_next : execFont x s = .next t
    ↔ t = (s.setI (BitVec.ofNat 16 ((s.getV x).toNat * 5))).advance 2 := finish_eq_next

theorem execBcd_next : execBcd x s = .next t ↔ s.i.toNat + 3 ≤ 4096
    ∧ t = (s.writeBytes s.i.toNat (bcdDigits (s.getV x))).advance 2 := by
  simp [execBcd, atI_eq_next, finish_eq_next]

theorem execStm_next : execStm x s = .next t ↔ s.i.toNat + (x.toNat + 1) ≤ 4096
    ∧ t = ((s.writeBytes s.i.toNat (s.regsTo x)).postIncI x).advance 2 := by
  simp [execStm, atI_eq_next, finish_eq_next]

theorem execLdm_next : execLdm x s = .next t ↔ s.i.toNat + (x.toNat + 1) ≤ 4096
    ∧ t = ((s.setRegs (Memory.readBytes s.mem s.i.toNat (x.toNat + 1))).postIncI x).advance 2 := by
  simp [execLdm, atI_eq_next, finish_eq_next]

theorem execDrw_next : execDrw x y n s = .next t ↔ (n.toNat = 0 ∨ s.i.toNat + n.toNat ≤ 4096)
    ∧ t = ((s.setFb (drawPixels s.fb (drawnPixels Params.spriteMsbLeft x y n s)).1).setVF
        (flagByte (drawPixels s.fb (drawnPixels Params.spriteMsbLeft x y n s)).2)).advance 2 := by
  simp [execDrw, atI_eq_next, finish_eq_next]

theorem execSkp_next : execSkp x s = .next t ↔ ∃ k, keyIndex Params.keyIndexPolicy (s.getV x) = .ok k
    ∧ t = s.advance (if s.keySet k = true then 4 else 2) := skipOnKey_eq_next

theorem execSknp_next : execSknp x s = .next t ↔ ∃ k, keyIndex Params.keyIndexPolicy (s.getV x) = .ok k
    ∧ t = s.advance (if s.keySet k = false then 4 else 2) := skipOnKey_eq_next

theorem execGdt_next : execGdt x s = .next t ↔ t = (s.setV x s.dt).advance 2 := finish_eq_next

theorem execWkey_next : execWkey x s = .next t ↔ t = { s with waitX := x, mode := .awaitingKey } := by
  simp [execWkey, eq_comm]

theorem execSdt_next : execSdt x s = .next t ↔ t = State.advance { s with dt := s.getV x } 2 := finish_eq_next

theorem execSst_next : execSst x s = .next t ↔ t = State.advance { s with st := s.getV x } 2 := finish_eq_next

end Inversions

end Sys2Proof.Machine
end

