-- ==== Sys2Proof/Laws/PerInstr.lean ====
section
/-! SUPPORT. The per-instruction family `Shape`: an instruction's written form passes the check of spec/30_encoding.md
R82 (its operands fit their fields), and its word matches its own row of the opcode table (R77), constructor by
constructor. -/

namespace Sys2Proof

/-- A word matches a row when its masked bits are the row's match. -/
theorem Mnemonic.matches_of_mask {m : Mnemonic} {op w : Word} (h : op &&& m.maskMatch.1 = w)
    (hw : w = m.maskMatch.2) : m.matches op = true := by
  simp [Mnemonic.matches, h, hw]

theorem operandsFit_reg (x : Nibble) : operandsFit [.reg] [x.toNat] = true := by
  simp only [operandsFit, OperandKind.bound, Bool.and_eq_true, and_true]
  exact decide_eq_true (show x.toNat < 16 from x.isLt)

theorem operandsFit_regReg (x y : Nibble) : operandsFit [.reg, .reg] [x.toNat, y.toNat] = true := by
  simp only [operandsFit, OperandKind.bound, Bool.and_eq_true, and_true]
  exact ⟨decide_eq_true (show x.toNat < 16 from x.isLt), decide_eq_true (show y.toNat < 16 from y.isLt)⟩

theorem operandsFit_regImm (x : Nibble) (nn : Byte) : operandsFit [.reg, .imm8] [x.toNat, nn.toNat] = true := by
  simp only [operandsFit, OperandKind.bound, Bool.and_eq_true, and_true]
  exact ⟨decide_eq_true (show x.toNat < 16 from x.isLt), decide_eq_true (show nn.toNat < 256 from nn.isLt)⟩

theorem operandsFit_addr (nnn : Addr12) : operandsFit [.addr12] [nnn.toNat] = true := by
  simp only [operandsFit, OperandKind.bound, Bool.and_eq_true, and_true]
  exact decide_eq_true (show nnn.toNat < 4096 from nnn.isLt)

theorem operandsFit_sprite (x y n : Nibble) : operandsFit [.reg, .reg, .imm4] [x.toNat, y.toNat, n.toNat] = true := by
  simp only [operandsFit, OperandKind.bound, Bool.and_eq_true, and_true]
  exact ⟨decide_eq_true (show x.toNat < 16 from x.isLt), decide_eq_true (show y.toNat < 16 from y.isLt), decide_eq_true (show n.toNat < 16 from n.isLt)⟩

namespace Laws

/-- What the family says of an instruction as syntax. -/
def Shape.Statement (i : Instr) : Prop := i.WellFormed ∧ i.mnemonic.matches (encode i) = true

/-- The first list of operand kinds being met is enough. -/
theorem Shape.wellFormed_of {i : Instr} (h : operandsFit i.mnemonic.operands i.operands = true) : i.WellFormed := by
  simp only [Instr.WellFormed, SourceLine.wellFormed, Instr.toLine, h, Bool.true_or]

theorem Shape.cls : Shape.Statement .cls := ⟨by unfold Instr.WellFormed; decide, by decide⟩
theorem Shape.ret : Shape.Statement .ret := ⟨by unfold Instr.WellFormed; decide, by decide⟩
theorem Shape.jp (nnn : Addr12) : Shape.Statement (.jp nnn) :=
  ⟨Shape.wellFormed_of (operandsFit_addr nnn), Mnemonic.matches_of_mask (formatA_mask ..) rfl⟩
theorem Shape.call (nnn : Addr12) : Shape.Statement (.call nnn) :=
  ⟨Shape.wellFormed_of (operandsFit_addr nnn), Mnemonic.matches_of_mask (formatA_mask ..) rfl⟩
theorem Shape.sei (x : Nibble) (nn : Byte) : Shape.Statement (.sei x nn) :=
  ⟨Shape.wellFormed_of (operandsFit_regImm x nn), Mnemonic.matches_of_mask (formatI_mask ..) rfl⟩
theorem Shape.snei (x : Nibble) (nn : Byte) : Shape.Statement (.snei x nn) :=
  ⟨Shape.wellFormed_of (operandsFit_regImm x nn), Mnemonic.matches_of_mask (formatI_mask ..) rfl⟩
theorem Shape.ser (x : Nibble) (y : Nibble) : Shape.Statement (.ser x y) :=
  ⟨Shape.wellFormed_of (operandsFit_regReg x y), Mnemonic.matches_of_mask (formatR_maskLow ..) rfl⟩
theorem Shape.ldi (x : Nibble) (nn : Byte) : Shape.Statement (.ldi x nn) :=
  ⟨Shape.wellFormed_of (operandsFit_regImm x nn), Mnemonic.matches_of_mask (formatI_mask ..) rfl⟩
theorem Shape.addi (x : Nibble) (nn : Byte) : Shape.Statement (.addi x nn) :=
  ⟨Shape.wellFormed_of (operandsFit_regImm x nn), Mnemonic.matches_of_mask (formatI_mask ..) rfl⟩
theorem Shape.mov (x : Nibble) (y : Nibble) : Shape.Statement (.mov x y) :=
  ⟨Shape.wellFormed_of (operandsFit_regReg x y), Mnemonic.matches_of_mask (formatR_maskLow ..) rfl⟩
theorem Shape.or (x : Nibble) (y : Nibble) : Shape.Statement (.or x y) :=
  ⟨Shape.wellFormed_of (operandsFit_regReg x y), Mnemonic.matches_of_mask (formatR_maskLow ..) rfl⟩
theorem Shape.and (x : Nibble) (y : Nibble) : Shape.Statement (.and x y) :=
  ⟨Shape.wellFormed_of (operandsFit_regReg x y), Mnemonic.matches_of_mask (formatR_maskLow ..) rfl⟩
theorem Shape.xor (x : Nibble) (y : Nibble) : Shape.Statement (.xor x y) :=
  ⟨Shape.wellFormed_of (operandsFit_regReg x y), Mnemonic.matches_of_mask (formatR_maskLow ..) rfl⟩
theorem Shape.add (x : Nibble) (y : Nibble) : Shape.Statement (.add x y) :=
  ⟨Shape.wellFormed_of (operandsFit_regReg x y), Mnemonic.matches_of_mask (formatR_maskLow ..) rfl⟩
theorem Shape.sub (x : Nibble) (y : Nibble) : Shape.Statement (.sub x y) :=
  ⟨Shape.wellFormed_of (operandsFit_regReg x y), Mnemonic.matches_of_mask (formatR_maskLow ..) rfl⟩
theorem Shape.shr (x : Nibble) (y : Nibble) : Shape.Statement (.shr x y) := by
  refine ⟨by
    unfold Instr.WellFormed SourceLine.wellFormed Instr.toLine Instr.operands Instr.mnemonic
    dsimp only [Mnemonic.operands, Mnemonic.altOperands]
    split
    · simp [operandsFit_reg]
    · simp [operandsFit_regReg], Mnemonic.matches_of_mask (formatR_maskLow ..) rfl⟩
theorem Shape.shl (x : Nibble) (y : Nibble) : Shape.Statement (.shl x y) := by
  refine ⟨by
    unfold Instr.WellFormed SourceLine.wellFormed Instr.toLine Instr.operands Instr.mnemonic
    dsimp only [Mnemonic.operands, Mnemonic.altOperands]
    split
    · simp [operandsFit_reg]
    · simp [operandsFit_regReg], Mnemonic.matches_of_mask (formatR_maskLow ..) rfl⟩
theorem Shape.sner (x : Nibble) (y : Nibble) : Shape.Statement (.sner x y) :=
  ⟨Shape.wellFormed_of (operandsFit_regReg x y), Mnemonic.matches_of_mask (formatR_maskLow ..) rfl⟩
theorem Shape.seti (nnn : Addr12) : Shape.Statement (.seti nnn) :=
  ⟨Shape.wellFormed_of (operandsFit_addr nnn), Mnemonic.matches_of_mask (formatA_mask ..) rfl⟩
theorem Shape.jpv0 (nnn : Addr12) : Shape.Statement (.jpv0 nnn) :=
  ⟨Shape.wellFormed_of (operandsFit_addr nnn), Mnemonic.matches_of_mask (formatA_mask ..) rfl⟩
theorem Shape.rnd (x : Nibble) (nn : Byte) : Shape.Statement (.rnd x nn) :=
  ⟨Shape.wellFormed_of (operandsFit_regImm x nn), Mnemonic.matches_of_mask (formatI_mask ..) rfl⟩
theorem Shape.drw (x : Nibble) (y : Nibble) (n : Nibble) : Shape.Statement (.drw x y n) :=
  ⟨Shape.wellFormed_of (operandsFit_sprite x y n), Mnemonic.matches_of_mask (formatR_mask ..) rfl⟩
theorem Shape.skp (x : Nibble) : Shape.Statement (.skp x) :=
  ⟨Shape.wellFormed_of (operandsFit_reg x), Mnemonic.matches_of_mask (formatI_maskLow ..) rfl⟩
theorem Shape.sknp (x : Nibble) : Shape.Statement (.sknp x) :=
  ⟨Shape.wellFormed_of (operandsFit_reg x), Mnemonic.matches_of_mask (formatI_maskLow ..) rfl⟩
theorem Shape.gdt (x : Nibble) : Shape.Statement (.gdt x) :=
  ⟨Shape.wellFormed_of (operandsFit_reg x), Mnemonic.matches_of_mask (formatI_maskLow ..) rfl⟩
theorem Shape.wkey (x : Nibble) : Shape.Statement (.wkey x) :=
  ⟨Shape.wellFormed_of (operandsFit_reg x), Mnemonic.matches_of_mask (formatI_maskLow ..) rfl⟩
theorem Shape.sdt (x : Nibble) : Shape.Statement (.sdt x) :=
  ⟨Shape.wellFormed_of (operandsFit_reg x), Mnemonic.matches_of_mask (formatI_maskLow ..) rfl⟩
theorem Shape.sst (x : Nibble) : Shape.Statement (.sst x) :=
  ⟨Shape.wellFormed_of (operandsFit_reg x), Mnemonic.matches_of_mask (formatI_maskLow ..) rfl⟩
theorem Shape.adi (x : Nibble) : Shape.Statement (.adi x) :=
  ⟨Shape.wellFormed_of (operandsFit_reg x), Mnemonic.matches_of_mask (formatI_maskLow ..) rfl⟩
theorem Shape.font (x : Nibble) : Shape.Statement (.font x) :=
  ⟨Shape.wellFormed_of (operandsFit_reg x), Mnemonic.matches_of_mask (formatI_maskLow ..) rfl⟩
theorem Shape.bcd (x : Nibble) : Shape.Statement (.bcd x) :=
  ⟨Shape.wellFormed_of (operandsFit_reg x), Mnemonic.matches_of_mask (formatI_maskLow ..) rfl⟩
theorem Shape.stm (x : Nibble) : Shape.Statement (.stm x) :=
  ⟨Shape.wellFormed_of (operandsFit_reg x), Mnemonic.matches_of_mask (formatI_maskLow ..) rfl⟩
theorem Shape.ldm (x : Nibble) : Shape.Statement (.ldm x) :=
  ⟨Shape.wellFormed_of (operandsFit_reg x), Mnemonic.matches_of_mask (formatI_maskLow ..) rfl⟩

end Laws

end Sys2Proof
end

