-- ==== Sys2Proof/Laws/Step.lean ====
section
/-! SUPPORT. What one STEP can do, said once (spec/60_exceptions.md R200). -/

namespace Sys2Proof.Machine

theorem fetchFault_eq_none {s : State} : fetchFault s = none ↔ s.pc.toNat ≤ 4094 := by
  rw [fetchFault, accessFault_eq_none, Config.instrBytes]; omega

theorem fetchFault_eq_some {s : State} {f : Fault} :
    fetchFault s = some f ↔ 4094 < s.pc.toNat ∧ f = .outOfBoundsAccess (max s.pc.toNat 4096) := by
  rw [fetchFault, accessFault_eq_some, Config.instrBytes]; refine and_congr_left fun _ => ?_; omega

/-- The fetched word as a number: 256 * mem[pc] + mem[pc + 1] (spec/20_memory.md R50). -/
theorem fetchWord_eq_ofNat (s : State) : fetchWord s
    = BitVec.ofNat 16 ((s.readByte s.pc.toNat).toNat * 256 + (s.readByte (s.pc.toNat + 1)).toNat) := by
  apply BitVec.eq_of_toNat_eq
  have h0 := (s.readByte s.pc.toNat).isLt
  have h1 := (s.readByte (s.pc.toNat + 1)).isLt
  rw [fetchWord, toNat_wordOfBytes, BitVec.toNat_ofNat, Nat.mod_eq_of_lt (by omega)]

/-- With `HAS_SUBN` false a word that decodes to nothing is an unknown opcode (R202). -/
theorem unknownWord_false (op : Word) (s : State) : unknownWord false op s = .fault (.unknownOpcode op) := by
  simp [unknownWord, raise]

/-- A STEP that answers a next state: a waiting step, or the decoded instruction's execution from a pc in bounds. -/
theorem step_eq_next {s t : State} :
    step s = .next t ↔
      (s.mode = .awaitingKey ∧ waitStep s = .next t)
        ∨ (s.mode = .running ∧ s.pc.toNat ≤ 4094
            ∧ ∃ i, decodeWord (fetchWord s) = some i ∧ exec i s = .next t) := by
  unfold step
  cases s.mode with
  | awaitingKey => simp
  | running =>
    simp only [runStep, reduceCtorEq, false_and, false_or, true_and]
    cases hf : fetchFault s with
    | some f =>
      have := (fetchFault_eq_some.1 hf).1
      simp only [raise, reduceCtorEq, false_iff, not_and]
      omega
    | none =>
      have := fetchFault_eq_none.1 hf
      simp only [this, true_and]
      cases hd : decodeWord (fetchWord s) with
      | none => simp [Params.hasSubn, unknownWord_false]
      | some i => simp

end Sys2Proof.Machine
end

