-- ==== Sys2Proof/Machine/Assembler.lean ====
section
/-! DEFINITION. The spec's assembly notation as text (spec/30_encoding.md rules R81 to R83): lines with labels, DB, ORG
and comments, assembled to bytes at addresses, and the text of a disassembled instruction. It is notation and no part
of the machine (92_eei_decisions D16); what R82 does not say is in notes/assumptions/28.md. -/

namespace Sys2Proof

/-- A piece of text. -/
abbrev Text := List Char

/-! ## Names and literals -/

/-- A mnemonic as R82 spells it. -/
def Mnemonic.text : Mnemonic → Text
  | .CLS => ['C', 'L', 'S']
  | .RET => ['R', 'E', 'T']
  | .JP => ['J', 'P']
  | .CALL => ['C', 'A', 'L', 'L']
  | .SEI => ['S', 'E', 'I']
  | .SNEI => ['S', 'N', 'E', 'I']
  | .SER => ['S', 'E', 'R']
  | .LDI => ['L', 'D', 'I']
  | .ADDI => ['A', 'D', 'D', 'I']
  | .MOV => ['M', 'O', 'V']
  | .OR => ['O', 'R']
  | .AND => ['A', 'N', 'D']
  | .XOR => ['X', 'O', 'R']
  | .ADD => ['A', 'D', 'D']
  | .SUB => ['S', 'U', 'B']
  | .SHR => ['S', 'H', 'R']
  | .SHL => ['S', 'H', 'L']
  | .SNER => ['S', 'N', 'E', 'R']
  | .SETI => ['S', 'E', 'T', 'I']
  | .JPV0 => ['J', 'P', 'V', '0']
  | .RND => ['R', 'N', 'D']
  | .DRW => ['D', 'R', 'W']
  | .SKP => ['S', 'K', 'P']
  | .SKNP => ['S', 'K', 'N', 'P']
  | .GDT => ['G', 'D', 'T']
  | .WKEY => ['W', 'K', 'E', 'Y']
  | .SDT => ['S', 'D', 'T']
  | .SST => ['S', 'S', 'T']
  | .ADI => ['A', 'D', 'I']
  | .FONT => ['F', 'O', 'N', 'T']
  | .BCD => ['B', 'C', 'D']
  | .STM => ['S', 'T', 'M']
  | .LDM => ['L', 'D', 'M']

/-- The value of a hexadecimal digit, either case. -/
def digitValue (c : Char) : Option Nat :=
  if '0'.toNat ≤ c.toNat ∧ c.toNat ≤ '9'.toNat then some (c.toNat - '0'.toNat)
  else if 'A'.toNat ≤ c.toNat ∧ c.toNat ≤ 'F'.toNat then some (c.toNat - 'A'.toNat + 10)
  else if 'a'.toNat ≤ c.toNat ∧ c.toNat ≤ 'f'.toNat then some (c.toNat - 'a'.toNat + 10)
  else none

/-- Digits of a base read after a value; none for a character that is no digit of the base. -/
def readDigits (base : Nat) (acc : Nat) : Text → Option Nat
  | [] => some acc
  | c :: cs =>
    match digitValue c with
    | some d => if d < base then readDigits base (acc * base + d) cs else none
    | none => none

/-- A literal: hexadecimal after `0x`, its digits in either case, else decimal; at least one digit (R82;
notes/assumptions/28.md). -/
def readNumber : Text → Option Nat
  | [] => none
  | '0' :: 'x' :: [] => none
  | '0' :: 'x' :: cs => readDigits 16 0 cs
  | cs => readDigits 10 0 cs

/-- A register operand, V0 to V9 or VA to VF in either case (R82). -/
def readRegister : Text → Option Nat
  | ['V', c] => digitValue c
  | ['v', c] => digitValue c
  | _ => none

/-! ## Lines -/

/-- A blank. -/
def isBlank (c : Char) : Bool := c == ' ' || c == '\t' || c == '\r'

/-- The text without blanks at either end. -/
def trim (cs : Text) : Text := ((cs.dropWhile isBlank).reverse.dropWhile isBlank).reverse

/-- The pieces between the occurrences of a character. -/
def splitAt' (c : Char) : Text → List Text
  | [] => [[]]
  | d :: ds =>
    if d = c then [] :: splitAt' c ds
    else
      match splitAt' c ds with
      | [] => [[d]]
      | p :: ps => (d :: p) :: ps

/-- What stands on a line after its label: nothing, or a first word and the operands between commas. -/
inductive LineBody where
  | empty
  | command (word : Text) (args : List Text)
  deriving DecidableEq, Repr

/-- A line cut up: its label, if any, and the rest (R82). -/
structure TextLine where
  label : Option Text
  body : LineBody
  deriving DecidableEq, Repr

/-- The body of a line without comment and label. -/
def readBody (cs : Text) : LineBody :=
  let t := trim cs
  let word := t.takeWhile fun c => !isBlank c
  let rest := trim (t.dropWhile fun c => !isBlank c)
  if word = [] then .empty
  else .command word (if rest = [] then [] else (splitAt' ',' rest).map trim)

/-- A line of text: the comment from `;` on is dropped, a `:` ends the label (R82). R82 does not say what text a name may
be: here it is whatever stands before the first `:`, blanks at its ends taken off and blanks inside kept, and its case
matters. DESIGN CHOICE, safe: notes/assumptions/28.md. -/
def readLine (cs : Text) : TextLine :=
  let t := cs.takeWhile fun c => c != ';'
  if ':' ∈ t then
    { label := some (trim (t.takeWhile fun c => c != ':')), body := readBody ((t.dropWhile fun c => c != ':').drop 1) }
  else { label := none, body := readBody t }

/-! ## Assembling -/

/-- The labels met so far and the addresses they name. -/
abbrev Labels := List (Text × Nat)

/-- The address a label names; names are compared letter for letter (notes/assumptions/28.md). -/
def Labels.find (ls : Labels) (name : Text) : Option Nat := (ls.find? fun p => p.1 == name).map Prod.snd

/-- The value of an operand of a kind: a register, a literal, or, for NNN, a label (R82). -/
def readOperand (ls : Labels) (k : OperandKind) (cs : Text) : Option Nat :=
  match k with
  | .reg => readRegister cs
  | .imm8 => readNumber cs
  | .imm4 => readNumber cs
  | .addr12 =>
    match readNumber cs with
    | some v => some v
    | none => ls.find cs

/-- The values of the operands of the kinds; none for a wrong number. -/
def readOperands (ls : Labels) : List OperandKind → List Text → Option (List Nat)
  | [], [] => some []
  | k :: ks, a :: as =>
    match readOperand ls k a, readOperands ls ks as with
    | some v, some vs => some (v :: vs)
    | _, _ => none
  | _, _ => none

/-- Literals that are each a byte, the operands of DB (R82). -/
def readBytesOf : List Text → Option (List Byte)
  | [] => some []
  | a :: as =>
    match readNumber a, readBytesOf as with
    | some v, some bs => if v < 256 then some (BitVec.ofNat 8 v :: bs) else none
    | _, _ => none

/-- The mnemonic a word spells. -/
def readMnemonic (w : Text) : Option Mnemonic := allMnemonics.find? fun m => m.text == w

/-- The instruction of a command: its operands by the kinds of R82 (SHR and SHL with or without Y), checked to fit. -/
def readInstr (ls : Labels) (w : Text) (args : List Text) : Option Instr :=
  match readMnemonic w with
  | none => none
  | some m =>
    match readOperands ls (if args.length = m.operands.length then m.operands else m.altOperands) args with
    | some vs => SourceLine.toInstr { mnemonic := m, operands := vs }
    | none => none

/-- The word DB. -/
def wordDB : Text := ['D', 'B']

/-- The word ORG. -/
def wordORG : Text := ['O', 'R', 'G']

/-- The address after a line that starts at an address: ORG sets it, DB and an instruction move it by their bytes (R82). -/
def addressAfter (pos : Nat) : LineBody → Option Nat
  | .empty => some pos
  | .command w args =>
    if w = wordORG then
      match args with
      | [a] => readNumber a
      | _ => none
    else if w = wordDB then some (pos + args.length)
    else some (pos + Config.instrBytes)

/-- Whether a body emits bytes. -/
def LineBody.emits : LineBody → Bool
  | .empty => false
  | .command w _ => w != wordORG

/-- The labels a line adds to those that wait for the next emitted byte; an empty name, or one defined twice, is an
error. -/
def waitingLabels (ls : Labels) (waiting : List Text) (l : TextLine) : Option (List Text) :=
  match l.label with
  | none => some waiting
  | some name => if name = [] ∨ name ∈ waiting ∨ name ∈ ls.map Prod.fst then none else some (name :: waiting)

/-- The first pass: every label with the address of the next emitted byte (R82). R82 does not say what a label names
after which no byte is emitted: here it names the address where the next byte would go. DESIGN CHOICE, safe:
notes/assumptions/28.md. -/
def collectLabels (ls : Labels) (waiting : List Text) (pos : Nat) : List TextLine → Option Labels
  | [] => some (waiting.map (fun n => (n, pos)) ++ ls)
  | l :: rest =>
    match waitingLabels ls waiting l, addressAfter pos l.body with
    | some ws, some next =>
      if l.body.emits then collectLabels (ws.map (fun n => (n, pos)) ++ ls) [] next rest
      else collectLabels ls ws next rest
    | _, _ => none

/-- The bytes a body emits. -/
def emitBody (ls : Labels) : LineBody → Option (List Byte)
  | .empty => some []
  | .command w args =>
    if w = wordORG then some []
    else if w = wordDB then (if args = [] then none else readBytesOf args)
    else (readInstr ls w args).map encodeBytes

/-- The second pass: the emitted bytes with their addresses, in the order they are emitted; two bytes that ORG puts at one
address both stand in the list (notes/assumptions/28.md). -/
def emitLines (ls : Labels) (pos : Nat) : List TextLine → Option (List (Nat × Byte))
  | [] => some []
  | l :: rest =>
    match emitBody ls l.body, addressAfter pos l.body with
    | some bs, some next =>
      match emitLines ls next rest with
      | some out => some ((bs.zipIdx pos).map (fun p => (p.2, p.1)) ++ out)
      | none => none
    | _, _ => none

/-- Assembly of lines of text, from 0x200 on; none for an assembly error (R82). -/
def assembleLines (lines : List Text) : Option (List (Nat × Byte)) :=
  match collectLabels [] [] Config.progBase (lines.map readLine) with
  | some ls => emitLines ls Config.progBase (lines.map readLine)
  | none => none

/-- Assembly of a text, one instruction or directive a line (R82). -/
def assemble (source : Text) : Option (List (Nat × Byte)) := assembleLines (splitAt' '\n' source)

/-! ## Disassembling to text -/

/-- A hexadecimal digit. -/
def digitText (d : Nat) : Char := if d < 10 then Char.ofNat ('0'.toNat + d) else Char.ofNat ('A'.toNat + (d - 10))

/-- A number in a given count of hexadecimal digits. -/
def hexText : Nat → Nat → Text
  | 0, _ => []
  | n + 1, v => hexText n (v / 16) ++ [digitText (v % 16)]

/-- An operand as it is written: a register by its digit, a literal in the digits of its field. -/
def OperandKind.text (k : OperandKind) (v : Nat) : Text :=
  match k with
  | .reg => ['V', digitText v]
  | .imm8 => '0' :: 'x' :: hexText 2 v
  | .imm4 => '0' :: 'x' :: hexText 1 v
  | .addr12 => '0' :: 'x' :: hexText 3 v

/-- Operands with a comma and a blank between them. -/
def operandsText : List OperandKind → List Nat → Text
  | [k], [v] => k.text v
  | k :: ks, v :: vs => k.text v ++ [',', ' '] ++ operandsText ks vs
  | _, _ => []

/-- The text of an instruction, SHR and SHL with their Y when it is not 0 (R83). -/
def Instr.text (i : Instr) : Text :=
  let l := i.toLine
  let ks := if l.operands.length = l.mnemonic.operands.length then l.mnemonic.operands else l.mnemonic.altOperands
  if l.operands = [] then l.mnemonic.text else l.mnemonic.text ++ [' '] ++ operandsText ks l.operands

end Sys2Proof
end

