-- ==== Sys2Proof/Tests/Slice0.lean ====
section
/-! SUPPORT. Tests of the model's own work and the witnesses of the statements' hypotheses. The expected results are
those of spec/95_test_vectors.md; a test's comment names its vector. -/

open Sys2Proof Sys2Proof.Machine Sys2Proof.Claims

namespace Sys2Proof.Tests

/-! ## Helpers -/

/-- Whether an outcome is a next state. -/
def isNext (r : Result) : Bool :=
  match r with
  | .next _ => true
  | _ => false

/-- The next state of an outcome (the reset state where there is none). -/
def after (r : Result) : State :=
  match r with
  | .next t => t
  | _ => State.reset

/-- The outcome is this fault. -/
def faults (r : Result) (f : Fault) : Bool :=
  match r with
  | .fault g => g == f
  | _ => false

theorem eq_after {r : Result} (h : isNext r = true) : r = .next (after r) := by
  cases r with
  | next t => rfl
  | fault f => cases h
  | refused q => cases h

theorem eq_fault {r : Result} {f : Fault} (h : faults r f = true) : r = .fault f := by
  cases r with
  | next t => cases h
  | fault g => rw [eq_of_beq h]
  | refused q => cases h

/-- One STEP of the word at pc. -/
def stepWord (s : State) (w : Nat) : Result := step (s.withFetchWord 16 w)

/-- One STEP of the word at pc gives a next state of which the check is true. -/
def gives (s : State) (w : Nat) (check : State → Bool) : Bool := isNext (stepWord s w) && check (after (stepWord s w))

/-- The reset state with the registers of a list set. -/
def withV (l : List (Nibble × Byte)) : State := l.foldl (fun s p => s.setV p.1 p.2) State.reset

/-- The reset state with I and some bytes at it. -/
def withI (i : Word) (bs : List Byte) : State := { State.reset with i := i }.writeBytes i.toNat bs

/-- The state with one pixel set. -/
def light (s : State) (x : Fin 64) (y : Fin 32) : State := { s with fb := s.fb.setPixel x y true }

/-- How many pixels are set. -/
def lit (s : State) : Nat := (s.fb.toList.map fun r => r.toList.countP id).sum

/-- The reset state waiting for a key, with a latch and some keys pressed. -/
def waiting (x : Nibble) (ks : List Nibble) : State :=
  ks.foldl (fun s k => s.setKey k true) { State.reset with mode := .awaitingKey, waitX := x }

/-! ## Well-formedness: each check refuses an ill-formed line (30_encoding R82) -/

theorem test_wf_accepts : (SourceLine.mk .SHR [15, 15]).wellFormed = true ∧ (SourceLine.mk .SHR [15]).wellFormed = true
    ∧ (SourceLine.mk .DRW [1, 2, 15]).toInstr = some (.drw 1 2 15) := by decide

theorem test_wf_refuses_count : (SourceLine.mk .CLS [0]).wellFormed = false ∧ (SourceLine.mk .ADD [1]).wellFormed = false
    ∧ (SourceLine.mk .SKP [1, 2]).toInstr = none := by decide

theorem test_wf_refuses_register : (SourceLine.mk .MOV [16, 0]).wellFormed = false
    ∧ (SourceLine.mk .MOV [0, 16]).wellFormed = false ∧ (SourceLine.mk .SHL [1, 16]).toInstr = none := by decide

theorem test_wf_refuses_imm8 : (SourceLine.mk .LDI [0, 256]).wellFormed = false
    ∧ (SourceLine.mk .RND [0, 256]).toInstr = none := by decide

theorem test_wf_refuses_imm4 : (SourceLine.mk .DRW [0, 0, 16]).wellFormed = false
    ∧ (SourceLine.mk .DRW [0, 0, 16]).toInstr = none := by decide

theorem test_wf_refuses_addr12 : (SourceLine.mk .JP [4096]).wellFormed = false
    ∧ (SourceLine.mk .SETI [4096]).toInstr = none := by decide

/-! ## Decoding: words written out from the encodings of 30_encoding R78 -/

/-- Flow: digits T, then NNN, or T, X, NN, or T, X, Y, 0; four bits a digit. -/
theorem test_decode_flow : decodeWord 0b0000000011100000#16 = some .cls ∧ decodeWord 0b0000000011101110#16 = some .ret
    ∧ decodeWord 0b0001101010111100#16 = some (.jp 0xABC) ∧ decodeWord 0b0010001000010000#16 = some (.call 0x210)
    ∧ decodeWord 0b1011000100100011#16 = some (.jpv0 0x123) := by decide

theorem test_decode_skips : decodeWord 0b0011101001111111#16 = some (.sei 0xA 0x7F)
    ∧ decodeWord 0b0100101001111111#16 = some (.snei 0xA 0x7F) ∧ decodeWord 0b0101000100100000#16 = some (.ser 1 2)
    ∧ decodeWord 0b1001000100100000#16 = some (.sner 1 2) := by decide

theorem test_decode_loads : decodeWord 0b0110110000000001#16 = some (.ldi 0xC 0x01)
    ∧ decodeWord 0b0111110011111111#16 = some (.addi 0xC 0xFF) ∧ decodeWord 0b1100010111110000#16 = some (.rnd 5 0xF0) := by decide

theorem test_decode_alu : decodeWord 0b1000101010110000#16 = some (.mov 0xA 0xB)
    ∧ decodeWord 0b1000101010110001#16 = some (.or 0xA 0xB) ∧ decodeWord 0b1000101010110010#16 = some (.and 0xA 0xB)
    ∧ decodeWord 0b1000101010110011#16 = some (.xor 0xA 0xB) ∧ decodeWord 0b1000101010110100#16 = some (.add 0xA 0xB)
    ∧ decodeWord 0b1000101010110101#16 = some (.sub 0xA 0xB) ∧ decodeWord 0b1000101010110110#16 = some (.shr 0xA 0xB)
    ∧ decodeWord 0b1000101010111110#16 = some (.shl 0xA 0xB) := by decide

theorem test_decode_index : decodeWord 0b1010000100100011#16 = some (.seti 0x123)
    ∧ decodeWord 0b1111000100011110#16 = some (.adi 1) ∧ decodeWord 0b1111000100101001#16 = some (.font 1)
    ∧ decodeWord 0b1111000100110011#16 = some (.bcd 1) ∧ decodeWord 0b1111000101010101#16 = some (.stm 1)
    ∧ decodeWord 0b1111000101100101#16 = some (.ldm 1) := by decide

theorem test_decode_display_keys_timers : decodeWord 0b1101000100100101#16 = some (.drw 1 2 5)
    ∧ decodeWord 0b1110000110011110#16 = some (.skp 1) ∧ decodeWord 0b1110000110100001#16 = some (.sknp 1)
    ∧ decodeWord 0b1111000100000111#16 = some (.gdt 1) ∧ decodeWord 0b1111000100001010#16 = some (.wkey 1)
    ∧ decodeWord 0b1111000100010101#16 = some (.sdt 1) ∧ decodeWord 0b1111000100011000#16 = some (.sst 1) := by decide

/-- The unknown words of 95_test_vectors 2.1. -/
theorem test_decode_unknown : [0x0000#16, 0x00E1#16, 0x0123#16, 0x5121#16, 0x8AB7#16, 0x8AB8#16, 0x8ABD#16, 0x8ABF#16,
    0x912F#16, 0xE19F#16, 0xE100#16, 0xE1A2#16, 0xF100#16, 0xF175#16, 0xF185#16, 0xF130#16, 0xF1FF#16, 0xFFFF#16].all
    (fun op => decodeWord op == none) = true := by decide

/-- Byte order of 95_test_vectors 2.1: bytes 12 34 are 0x1234, not 0x3412; one byte is no word. -/
theorem test_decode_bytes : decodeBytes [0x12, 0x34, 0x56] = .instr (.jp 0x234) [0x56]
    ∧ decodeBytes [0xFF, 0xFF] = .unknownOpcode 0xFFFF ∧ decodeBytes [0x12] = .truncated := by decide

theorem test_decode_table_word : decodeTableWord 16 0x1ABC = some (.jp 0xABC) ∧ decodeTableWord 16 0x8AB7 = none := by
  decide

/-- R77: exactly one row matches a decodable word. -/
theorem test_one_row_matches : allMnemonics.filter (fun m => m.matches 0xF10A) = [.WKEY]
    ∧ allMnemonics.filter (fun m => m.matches 0x8ABE) = [.SHL] ∧ allMnemonics.length = 33 := by decide

/-! ## The notation (30_encoding R82, R83; the programs of 95_test_vectors Part 3) -/

/-- Program P2 as text. -/
def textP2 : List String :=
  ["LDI V0, 5 ; counter", "LDI V1, 0", "loop: CALL sub", "ADDI V0, 0xFF", "SEI V0, 0", "JP loop"]
  ++ ["done: JP done", "ORG 0x210", "sub: ADDI v1, 3", "RET"]

/-- P2: the bytes the spec lists for it, from 0x200 and, after the unused word, from 0x210. -/
theorem test_assemble_p2 : (assembleLines (textP2.map String.toList)).map (List.map Prod.snd)
      = some [0x60, 0x05, 0x61, 0x00, 0x22, 0x10, 0x70, 0xFF, 0x30, 0x00, 0x12, 0x04, 0x12, 0x0C, 0x71, 0x03, 0x00, 0xEE]
    ∧ (assembleLines (textP2.map String.toList)).map (List.map Prod.fst)
      = some (List.range' 0x200 14 ++ List.range' 0x210 4) := by decide

/-- P4: the sprite's data by DB, a label before ORG names the next emitted byte. -/
theorem test_assemble_p4 : assembleLines (["SETI s", "DRW V0, V1, 2", "s:", "ORG 0x20E", "DB 0xC0, 0x81"].map String.toList)
    = some [(0x200, 0xA2), (0x201, 0x0E), (0x202, 0xD0), (0x203, 0x12), (0x20E, 0xC0), (0x20F, 0x81)] := by decide

/-- A value that does not fit, a label that is nowhere, a missing operand and a name defined twice are errors. -/
theorem test_assembly_errors : assembleLines ["LDI V0, 0x100".toList] = none ∧ assembleLines ["JP nowhere".toList] = none
    ∧ assembleLines ["ADD V0".toList] = none ∧ assembleLines ["a: CLS".toList, "a: RET".toList] = none := by decide

/-- R83: SHR with a Y that is not 0 shows it, and the text assembles back to the same word 0x8AB6. -/
theorem test_disassemble_shr : (Instr.shr 0xA 0xB).text = "SHR VA, VB".toList ∧ (Instr.shr 0xA 0).text = "SHR VA".toList
    ∧ assembleLines [(Instr.shr 0xA 0xB).text] = some [(0x200, 0x8A), (0x201, 0xB6)] := by decide

/-! ## One STEP per instruction (95_test_vectors 2.2 to 2.6) -/

/-- V-CLS-1. -/
theorem test_cls : gives (light (light (withV [(0xF, 1)]) 0 0) 63 31) 0x00E0
    (fun t => lit t == 0 && t.getV 0xF == 1 && t.pc == 0x202) = true := by decide

/-- V-RET-3. -/
theorem test_ret_top_slot : gives { State.reset with pc := 0x400, sp := 2, stack := (State.reset.stack.set 0 0x204).set 1 0x300 }
    0x00EE (fun t => t.sp == 1 && t.pc == 0x302) = true := by decide

/-- V-RET-2. -/
theorem test_ret_underflow : faults (stepWord State.reset 0x00EE) .stackUnderflow = true := by decide

/-- V-JP-1. -/
theorem test_jp : gives State.reset 0x1ABC (fun t => t.pc == 0xABC && t.sp == 0) = true := by decide

/-- V-JP-3: an odd pc is legal. -/
theorem test_jp_odd : gives (withI 0x200 [0x12, 0x01, 0x60, 0x07]) 0x1201
    (fun t => t.pc == 0x201 && faults (step t) (.unknownOpcode 0x0160)) = true := by decide

/-- V-CALL-2. -/
theorem test_call_last_slot : gives { State.reset with pc := 0x204, sp := 15 } 0x2210
    (fun t => t.stack[15] == 0x204 && t.sp == 16 && t.pc == 0x210) = true := by decide

/-- V-CALL-3. -/
theorem test_call_overflow : faults (stepWord { State.reset with sp := 16 } 0x2210) .stackOverflow = true := by decide

/-- V-JPV0-2. -/
theorem test_jpv0_not_reduced : gives (withV [(0, 0xFF)]) 0xBFFF
    (fun t => t.pc == 0x10FE && faults (step t) (.outOfBoundsAccess 0x10FE)) = true := by decide

/-- V-JPV0-3: the register is always V[0]. -/
theorem test_jpv0_register_zero : gives (withV [(3, 0x55)]) 0xB300 (fun t => t.pc == 0x300) = true := by decide

/-- V-SEI-1, V-SEI-2. -/
theorem test_sei : gives (withV [(3, 0x2A)]) 0x332A (fun t => t.pc == 0x204) = true
    ∧ gives (withV [(3, 0x2B)]) 0x332A (fun t => t.pc == 0x202) = true := by decide

/-- V-SEI-3. -/
theorem test_sei_top : gives { State.reset with pc := 0xFFE } 0x3000
    (fun t => t.pc == 0x1002 && faults (step t) (.outOfBoundsAccess 0x1002)) = true := by decide

/-- V-SNEI-1, V-SNEI-2. -/
theorem test_snei : gives (withV [(3, 0x2A)]) 0x432A (fun t => t.pc == 0x202) = true
    ∧ gives State.reset 0x432A (fun t => t.pc == 0x204) = true := by decide

/-- V-SER-1, V-SER-2. -/
theorem test_ser : gives (withV [(1, 7), (2, 7)]) 0x5120 (fun t => t.pc == 0x204) = true
    ∧ gives (withV [(1, 7), (2, 8)]) 0x5120 (fun t => t.pc == 0x202) = true := by decide

/-- V-SNER-1, V-SNER-2. -/
theorem test_sner : gives (withV [(1, 7), (2, 8)]) 0x9120 (fun t => t.pc == 0x204) = true
    ∧ gives (withV [(1, 7), (2, 7)]) 0x9120 (fun t => t.pc == 0x202) = true := by decide

/-- V-LDI-2. -/
theorem test_ldi_vf : gives (withV [(0xF, 1)]) 0x6F7B (fun t => t.getV 0xF == 0x7B && t.pc == 0x202) = true := by decide

/-- V-ADDI-1: wraps, and VF stays. -/
theorem test_addi_wraps : gives (withV [(2, 0xF0), (0xF, 0x55)]) 0x7220
    (fun t => t.getV 2 == 0x10 && t.getV 0xF == 0x55) = true := by decide

/-- V-MOV-1. -/
theorem test_mov : gives (withV [(4, 0x33)]) 0x8140 (fun t => t.getV 1 == 0x33 && t.getV 4 == 0x33) = true := by decide

/-- V-OR-1. -/
theorem test_or : gives (withV [(1, 0x0F), (2, 0xF0), (0xF, 0x55)]) 0x8121
    (fun t => t.getV 1 == 0xFF && t.getV 0xF == 0x55) = true := by decide

/-- V-AND-1. -/
theorem test_and : gives (withV [(1, 0x3C), (2, 0x0F), (0xF, 0x55)]) 0x8122
    (fun t => t.getV 1 == 0x0C && t.getV 0xF == 0x55) = true := by decide

/-- V-XOR-1. -/
theorem test_xor : gives (withV [(1, 0xFF), (2, 0x0F), (0xF, 0x55)]) 0x8123
    (fun t => t.getV 1 == 0xF0 && t.getV 0xF == 0x55) = true := by decide

/-- V-ADD-3, and V-ADD-8 (Y = F: the old VF is the addend). -/
theorem test_add_carry : gives (withV [(0, 0xFF), (1, 0xFF)]) 0x8014 (fun t => t.getV 0 == 0xFE && t.getV 0xF == 1) = true
    ∧ gives (withV [(0, 0xFF), (0xF, 1)]) 0x80F4 (fun t => t.getV 0 == 0x00 && t.getV 0xF == 1) = true := by decide

/-- V-ADD-7: the flag survives in VF. -/
theorem test_add_vf : gives (withV [(0xF, 3), (1, 1)]) 0x8F14 (fun t => t.getV 0xF == 0) = true := by decide

/-- V-SUB-1, V-SUB-3: VF is no borrow. -/
theorem test_sub : gives (withV [(1, 0x05), (2, 0x0A)]) 0x8125 (fun t => t.getV 1 == 0xFB && t.getV 0xF == 0) = true
    ∧ gives (withV [(1, 7), (2, 7)]) 0x8125 (fun t => t.getV 1 == 0 && t.getV 0xF == 1) = true := by decide

/-- V-SUB-7. -/
theorem test_sub_vf : gives (withV [(0xF, 5), (1, 5)]) 0x8F15 (fun t => t.getV 0xF == 1) = true := by decide

/-- V-SHR-1, V-SHR-5 (Y ignored). -/
theorem test_shr : gives (withV [(3, 0x05)]) 0x8306 (fun t => t.getV 3 == 0x02 && t.getV 0xF == 1) = true
    ∧ gives (withV [(3, 0x04), (7, 0xFF)]) 0x8376 (fun t => t.getV 3 == 2 && t.getV 0xF == 0 && t.getV 7 == 0xFF) = true := by
  decide

/-- V-SHL-1, V-SHL-2. -/
theorem test_shl : gives (withV [(3, 0x81)]) 0x830E (fun t => t.getV 3 == 0x02 && t.getV 0xF == 1) = true
    ∧ gives (withV [(3, 0x40), (0xF, 1)]) 0x830E (fun t => t.getV 3 == 0x80 && t.getV 0xF == 0) = true := by decide

/-- V-RND-2: whatever the draw, a mask of 0 gives 0. -/
theorem test_rnd_mask_zero : ∃ t, execRnd 3 0x00 State.reset = .next t ∧ t.getV 3 = Config.randomDraw 0 &&& 0x00#8 ∧ t.getV 3 = 0 :=
  ⟨_, rfl, rfl, BitVec.and_zero⟩

/-- V-ALU-ILL. -/
theorem test_subn_absent : faults (stepWord (withV [(1, 1), (2, 2)]) 0x8127) (.unknownOpcode 0x8127) = true := by decide

/-- 41_alu R130, as it would be with `HAS_SUBN` true: 2 - 1 with VF = 1. -/
theorem test_subn_switch : isNext (unknownWord true 0x8127 (withV [(1, 1), (2, 2)])) = true
    ∧ (after (unknownWord true 0x8127 (withV [(1, 1), (2, 2)]))).getV 1 = 1
    ∧ (after (unknownWord true 0x8127 (withV [(1, 1), (2, 2)]))).getV 0xF = 1 := by decide

/-- V-SETI-2. -/
theorem test_seti : gives { State.reset with i := 0x1234 } 0xAFFF (fun t => t.i == 0xFFF && t.pc == 0x202) = true := by decide

/-- V-ADI-2, V-ADI-3, V-ADI-5. -/
theorem test_adi : gives { withV [(2, 1)] with i := 0xFFE } 0xF21E (fun t => t.i == 0xFFF && t.getV 0xF == 0) = true
    ∧ gives { withV [(2, 1)] with i := 0xFFF } 0xF21E (fun t => t.i == 0x1000 && t.getV 0xF == 1) = true
    ∧ gives { withV [(2, 1)] with i := 0xFFFF } 0xF21E (fun t => t.i == 0 && t.getV 0xF == 1) = true := by decide

/-- V-ADI-6. -/
theorem test_adi_vf : gives { withV [(0xF, 5)] with i := 0x100 } 0xFF1E (fun t => t.i == 0x105 && t.getV 0xF == 0) = true := by
  decide

/-- V-FONT-3, V-FONT-5 (no mask). -/
theorem test_font : gives (withV [(4, 0x0F)]) 0xF429 (fun t => t.i == 0x4B) = true
    ∧ gives (withV [(4, 0xFF)]) 0xF429 (fun t => t.i == 0x4FB) = true := by decide

/-- V-BCD-8. -/
theorem test_bcd_top : gives ({ withV [(0, 123)] with i := 0xFFD }) 0xF033
    (fun t => t.readByte 0xFFD == 1 && t.readByte 0xFFE == 2 && t.readByte 0xFFF == 3 && t.i == 0xFFD) = true := by decide

/-- V-BCD-9. -/
theorem test_bcd_fault : faults (stepWord ({ withV [(0, 123)] with i := 0xFFE }) 0xF033) (.outOfBoundsAccess 0x1000) = true := by
  decide

/-- V-STM-1. -/
theorem test_stm : gives ({ withV [(0, 0x11), (1, 0x22), (2, 0x33)] with i := 0x400 }) 0xF155
    (fun t => t.readByte 0x400 == 0x11 && t.readByte 0x401 == 0x22 && t.readByte 0x402 == 0 && t.i == 0x402) = true := by decide

/-- V-STM-4. -/
theorem test_stm_fault : faults (stepWord { State.reset with i := 0xFF1 } 0xFF55) (.outOfBoundsAccess 0x1000) = true := by decide

/-- V-LDM-1. -/
theorem test_ldm : gives ((withI 0x400 [0x11, 0x22, 0x33]).setV 2 0x99) 0xF165
    (fun t => t.getV 0 == 0x11 && t.getV 1 == 0x22 && t.getV 2 == 0x99 && t.i == 0x402) = true := by decide

/-- V-LDM-4: glyph 0 of the font, from the reset memory. -/
theorem test_ldm_font : gives State.reset 0xF465
    (fun t => t.getV 0 == 0xF0 && t.getV 1 == 0x90 && t.getV 3 == 0x90 && t.getV 4 == 0xF0 && t.i == 5) = true := by decide

/-- V-DRW-3: a row wraps within itself; column 0 is bit 7. -/
theorem test_drw_wraps : gives ((withI 0x300 [0xFF]).setV 0 60) 0xD011 (fun t => lit t == 8 && t.fb.pixel 60 0
    && t.fb.pixel 63 0 && t.fb.pixel 0 0 && t.fb.pixel 3 0 && t.getV 0xF == 0) = true := by decide

/-- V-DRW-5: a collision. -/
theorem test_drw_collides : gives (light (((withI 0x300 [0xFF]).setV 0 8).setV 1 5) 10 5) 0xD011
    (fun t => lit t == 7 && !t.fb.pixel 10 5 && t.fb.pixel 8 5 && t.fb.pixel 15 5 && t.getV 0xF == 1) = true := by decide

/-- V-SKP-1, V-SKP-3, V-SKP-4. -/
theorem test_skp : gives ((withV [(3, 2)]).setKey 2 true) 0xE39E (fun t => t.pc == 0x204) = true
    ∧ gives ((withV [(3, 15)]).setKey 15 true) 0xE39E (fun t => t.pc == 0x204) = true
    ∧ faults (stepWord (withV [(3, 16)]) 0xE39E) (.keyIndexOutOfRange 16) = true := by decide

/-- V-SKNP-1, V-SKNP-2. -/
theorem test_sknp : gives (withV [(3, 2)]) 0xE3A1 (fun t => t.pc == 0x204) = true
    ∧ gives ((withV [(3, 2)]).setKey 2 true) 0xE3A1 (fun t => t.pc == 0x202) = true := by decide

/-- V-WKEY-1: a key already down is not taken by this step. -/
theorem test_wkey_encounter : gives (State.reset.setKey 5 true) 0xF30A
    (fun t => t.mode == .awaitingKey && t.waitX == 3 && t.pc == 0x200 && t.getV 3 == 0 && t.report == .waitingForKey) = true := by
  decide

/-- V-WKEY-4: the least set key, into the latched register. -/
theorem test_wkey_resumes : isNext (step (waiting 0xF [9, 1])) = true
    ∧ (after (step (waiting 0xF [9, 1]))).getV 0xF = 1 ∧ (after (step (waiting 0xF [9, 1]))).pc = 0x202
    ∧ (after (step (waiting 0xF [9, 1]))).report = .executed := by decide

/-- V-GDT-1. -/
theorem test_gdt : gives { State.reset with dt := 0x1E } 0xF407 (fun t => t.getV 4 == 0x1E && t.dt == 0x1E) = true := by decide

/-- V-SDT-1. -/
theorem test_sdt : gives (withV [(3, 0x3C)]) 0xF315 (fun t => t.dt == 0x3C && t.st == 0) = true := by decide

/-- V-SST-1. -/
theorem test_sst : gives { withV [(3, 5)] with dt := 9 } 0xF318 (fun t => t.st == 5 && t.dt == 9) = true := by decide

/-! ## Fetch and interface operations (95_test_vectors 2.6, 2.7) -/

/-- V-FETCH-1, V-FETCH-2, V-RESET-2. -/
theorem test_fetch : gives { State.reset with pc := 0xFFE } 0x00E0 (fun t => t.pc == 0x1000) = true
    ∧ faults (step { State.reset with pc := 0xFFF }) (.outOfBoundsAccess 0x1000) = true
    ∧ faults (step State.reset) (.unknownOpcode 0x0000) = true := by decide

/-- V-TICK-3. -/
theorem test_tick : { State.reset with dt := 1, st := 255 }.tick = { State.reset with dt := 0, st := 254 } := by decide

/-- V-LOAD-4. -/
theorem test_load_mid_run : (HostOp.run (.load [0x12, 0x00]) { withV [(1, 9)] with pc := 0x300 }).1 = .loaded
    ∧ (HostOp.run (.load [0x12, 0x00]) { withV [(1, 9)] with pc := 0x300 }).2.readByte 0x200 = 0x12
    ∧ (HostOp.run (.load [0x12, 0x00]) { withV [(1, 9)] with pc := 0x300 }).2.pc = 0x300 := by decide

/-! ## Witnesses: concrete states and operands that meet a statement's hypotheses together -/

theorem witness_decode_of_encode : (Instr.drw 0xF 0xF 0xF).WellFormed ∧ (Instr.shr 0xF 0xF).WellFormed
    ∧ (Instr.jp 0xFFF).WellFormed ∧ (Instr.rnd 0xF 0xFF).WellFormed := by unfold Instr.WellFormed; decide

theorem witness_encode_of_decode : decodeWord 0x8FF6 = some (.shr 0xF 0xF) := by decide

theorem witness_table : ∃ op m i, op &&& m.maskMatch.1 = m.maskMatch.2 ∧ decodeWord op = some i ∧ i.mnemonic = m :=
  ⟨0xFFFF &&& 0xFF65, .LDM, .ldm 0xF, by decide, by decide, by decide⟩

/-- Every clause of the unknown words at the ends of its range. -/
theorem witness_unknown_words : [0x0000#16, 0x0FFF#16, 0x5001#16, 0x5FFF#16, 0x8007#16, 0x8FFF#16, 0x9001#16, 0x9FFF#16,
    0xE000#16, 0xEFFF#16, 0xF000#16, 0xFFFF#16].all (fun op => decodeWord op == none) = true := by decide

/-- A state at the last pc from which a fetch is in bounds. -/
def atTop : State := { State.reset with pc := 0xFFE }.writeBytes 0xFFE [0x60, 0x0A]

theorem witness_step_runs : atTop.mode = .running ∧ atTop.pc.toNat ≤ 0xFFE ∧ (Instr.ldi 0 0x0A).WellFormed
    ∧ decodeWord (BitVec.ofNat 16 ((atTop.readByte 0xFFE).toNat * 256 + (atTop.readByte 0xFFF).toNat))
      = some (.ldi 0 0x0A) := by unfold Instr.WellFormed; decide

theorem witness_fetch_out_of_bounds : { State.reset with pc := 0xFFF }.mode = .running
    ∧ 0xFFE < { State.reset with pc := 0xFFF }.pc.toNat ∧ 0xFFE < { State.reset with pc := 0x10FE }.pc.toNat := by decide

theorem witness_unknown_opcode : State.reset.mode = .running ∧ State.reset.pc.toNat ≤ 0xFFE
    ∧ decodeWord (fetchWord State.reset) = none := by decide

theorem witness_wkey_next : isNext (exec (.wkey 0xF) State.reset) = true := by decide

/-- No key; key 0; key 15 alone. -/
theorem witness_waiting : (waiting 3 []).mode = .awaitingKey ∧ (∀ k, (waiting 3 []).keySet k = false)
    ∧ (waiting 0 [0]).mode = .awaitingKey ∧ (waiting 0 [0]).keySet 0 = true
    ∧ (waiting 0xF [15]).mode = .awaitingKey ∧ (waiting 0xF [15]).keySet 15 = true
    ∧ ∀ j : Nibble, j.toNat < 15 → (waiting 0xF [15]).keySet j = false := by decide

/-- Every clause of the wait table: FX0A, waiting without and with a key, any other instruction. -/
theorem witness_wait_table : gives State.reset 0xF30A (fun t => t.report == .waitingForKey) = true
    ∧ isNext (step (waiting 3 [])) = true ∧ isNext (step (waiting 3 [2])) = true
    ∧ gives State.reset 0x00E0 (fun t => t.report == .executed) = true := by decide

theorem witness_ret : 0 < ({ State.reset with sp := 1 } : State).sp.val ∧ 0 < ({ State.reset with sp := 16 } : State).sp.val
    ∧ State.reset.sp.val = 0 := by decide

theorem witness_call : State.reset.sp.val < 16 ∧ ({ State.reset with sp := 15 } : State).sp.val < 16
    ∧ ({ State.reset with sp := 16 } : State).sp.val = 16 := by decide

theorem witness_jp : State.reset.pc.toNat = (0x200#12).toNat ∧ State.reset.mode = .running
    ∧ isNext (exec (.jp 0xFFF) State.reset) = true := by decide

/-- The skips at the last pc, taken and not taken. -/
theorem witness_skips : atTop.mode = .running ∧ atTop.pc = 0xFFE ∧ isNext (exec (.sei 0 0) atTop) = true
    ∧ isNext (exec (.snei 0 0) atTop) = true ∧ isNext (exec (.ser 0 0) atTop) = true
    ∧ isNext (exec (.sner 0 0) atTop) = true := by decide

theorem witness_rnd_next : isNext (exec (.rnd 0xF 0xFF) State.reset) = true := rfl

theorem witness_vf_order : (0xE#4) ≠ 0xF#4 := by decide

/-- I at its last legal base for three bytes. -/
theorem witness_bcd : Memory.wf ({ State.reset with i := 4093 } : State).mem
    ∧ ({ State.reset with i := 4093 } : State).i.toNat + 2 ≤ 4095 := by decide

/-- I + X at the last byte of memory, for STM and LDM with X = 15 and X = 0. -/
theorem witness_stm_ldm : Memory.wf ({ State.reset with i := 0xFF0 } : State).mem
    ∧ ({ State.reset with i := 0xFF0 } : State).i.toNat + (0xF#4).toNat ≤ 4095
    ∧ ({ State.reset with i := 0xFFF } : State).i.toNat + (0x0#4).toNat ≤ 4095 := by decide

theorem witness_store_then_load : Memory.wf ({ State.reset with i := 0xFF0 } : State).mem
    ∧ isNext (exec (.stm 0xF) { State.reset with i := 0xFF0 }) = true := by decide

/-- Every clause of the out-of-range accesses, one byte past the last legal base. -/
theorem witness_out_of_range : ({ State.reset with i := 4094 } : State).i.toNat + 2 > 4095
    ∧ ({ State.reset with i := 0xFF1 } : State).i.toNat + (0xF#4).toNat > 4095
    ∧ (0x1#4) ≠ 0 ∧ ({ State.reset with i := 4096 } : State).i.toNat + (0x1#4).toNat > 4096 := by decide

/-- pc 0x200, I 0x201: V[1] and V[2] go to 0x202 and 0x203. -/
theorem witness_stored_code : ∃ t, Memory.wf State.reset.mem ∧ State.reset.pc.toNat ≤ 0xFFC
    ∧ exec (.stm 0x2) { State.reset with i := 0x201 } = .next t ∧ (0x1#4).toNat ≤ (0x2#4).toNat
    ∧ (0x2#4).toNat = (0x1#4).toNat + 1 ∧ ({ State.reset with i := 0x201 } : State).i.toNat + (0x1#4).toNat = State.reset.pc.toNat + 2 :=
  ⟨_, by decide, by decide, eq_after (by decide), by decide, by decide, by decide⟩

/-- One covered pixel, set: glyph 0 at (0, 0). -/
theorem witness_covered : Covered (light State.reset 0 0) 0 0 5 0 0 ∧ (light State.reset 0 0).fb.pixel 0 0 = true :=
  ⟨⟨0, by decide, 0, by decide, by decide, by decide, by decide⟩, by decide⟩

/-- The two cases of DRW at their bounds, and a pixel no sprite covers. -/
theorem witness_drw : ({ State.reset with i := 0xFFF } : State).i.toNat + (0x1#4).toNat ≤ 4096
    ∧ isNext (exec (.drw 0 0 0) { State.reset with i := 0x2000 }) = true
    ∧ ¬Covered { State.reset with i := 0x2000 } 0 0 0 0 0 := by
  refine ⟨by decide, by decide, ?_⟩
  rintro ⟨r, hr, -⟩
  exact absurd hr (Nat.not_lt_zero r)

/-- A draw that covers set and clear pixels, neither register being F. -/
theorem witness_drawing_twice : ∃ t, (0x0#4) ≠ 0xF#4 ∧ (0x1#4) ≠ 0xF#4
    ∧ exec (.drw 0 1 5) (light State.reset 0 0) = .next t ∧ t.getV 0xF = 1 :=
  ⟨_, by decide, by decide, eq_after (by decide), by decide⟩

theorem witness_key_skips : ((withV [(0, 15)]).getV 0).toNat = (0xF#4).toNat ∧ 15 < ((withV [(0, 16)]).getV 0).toNat := by decide

theorem witness_load : Memory.wf State.reset.mem ∧ (List.replicate 3584 (0xAA#8)).length ≤ 3584
    ∧ 3584 < (List.replicate 3585 (0xAA#8)).length := by
  exact ⟨by decide, Nat.le_of_eq List.length_replicate, by rw [List.length_replicate]; decide⟩

/-- The bounds of the clauses over addresses, keys and registers: a font byte, a byte above it, a byte on each side of
the stored ones and of the loaded program, another key, a register above X. -/
theorem witness_ranges : 79 < 80 ∧ 80 ≤ 80 ∧ 4095 < 4096 ∧ 0x2FF < ({ State.reset with i := 0x300 } : State).i.toNat
    ∧ ({ State.reset with i := 0x300 } : State).i.toNat + 2 < 0x303 ∧ 0x1FF < 0x200 ∧ 0x200 + 3583 ≤ 4095
    ∧ 3583 < 3584 ∧ (0x1#4) ≠ 0x2#4 ∧ (0xE#4).toNat < (0xF#4).toNat := by decide

theorem witness_fault : step State.reset = .fault (.unknownOpcode 0x0000) := eq_fault (by decide)

/-- A state with the invariant at its bounds (a slot and pc at 0xFFE) that steps. -/
theorem witness_invariant : ∃ t, ({ atTop with sp := 1, stack := atTop.stack.set 0 0xFFE } : State).Inv
    ∧ step { atTop with sp := 1, stack := atTop.stack.set 0 0xFFE } = .next t :=
  ⟨_, by unfold State.Inv; decide, eq_after (by decide)⟩

theorem witness_reachable : Reachable (runOps [.load [0x60, 0x0A], .step, .tick, .setKey 2 true] State.reset).2
    ∧ (runOps [.load [0x60, 0x0A], .step, .tick, .setKey 2 true] State.reset).2.getV 0 = 0x0A := ⟨⟨_, rfl⟩, by decide⟩

/-- A destination of each kind of the register instructions. -/
theorem witness_frame_registers : regDests (.ldi 0xE 1) = some [0xE] ∧ regDests (.add 0xF 0) = some [0xF, 0xF]
    ∧ isNext (exec (.ldi 0xE 1) State.reset) = true ∧ isNext (exec (.add 0xF 0) State.reset) = true
    ∧ Instr.ldi 0xE 1 ≠ .rnd 0xE 1 := by decide

theorem witness_frame_index : ∀ i ∈ [Instr.seti 0xFFF, .font 0xF, .adi 0xF, .ldm 0xF, .wkey 0xF, .sdt 0xF, .sst 0xF],
    isNext (exec i { State.reset with i := 0xFF0 }) = true := by decide

/-- The addresses next to the stored bytes. -/
theorem witness_frame_storing : isNext (exec (.bcd 0) { State.reset with i := 0x300 }) = true
    ∧ isNext (exec (.stm 0xF) { State.reset with i := 0x300 }) = true
    ∧ 0x2FF < ({ State.reset with i := 0x300 } : State).i.toNat ∧ ({ State.reset with i := 0x300 } : State).i.toNat + 3 ≤ 0x303 := by
  decide

theorem witness_frame_control : ∀ i ∈ [Instr.ret, .jp 0, .call 0, .jpv0 0, .sei 0 0, .snei 0 0, .ser 0 0, .sner 0 0, .skp 0,
    .sknp 0], isNext (exec i { State.reset with sp := 1 }) = true := by decide

theorem witness_frame_display : isNext (exec .cls State.reset) = true ∧ isNext (exec (.drw 0 0 5) State.reset) = true := by decide

/-- A next state of the instructions whose clause of the pc list has a hypothesis of its own. -/
theorem witness_pc_list : isNext (exec (.skp 0) State.reset) = true ∧ isNext (exec .ret { State.reset with sp := 16 }) = true
    ∧ (0x0#4).toNat = (State.reset.getV 0).toNat := by decide

theorem witness_vf_written : isNext (exec (.ldi 0xF 1) State.reset) = true
    ∧ (after (exec (.ldi 0xF 1) State.reset)).getV 0xF ≠ State.reset.getV 0xF
    ∧ (after (exec (.add 0 0) (withV [(0, 0x80)]))).getV 0xF ≠ (withV [(0, 0x80)]).getV 0xF := by decide

/-- A STEP of CALL changes slot 15 and sp; one of RET changes sp. -/
theorem witness_stack : gives { State.reset with sp := 15 } 0x2210 (fun t => t.stack[15] != 0 && t.sp != 15) = true
    ∧ gives { State.reset with sp := 1 } 0x00EE (fun t => t.sp != 1) = true := by decide

theorem witness_wait_edges : gives State.reset 0xF30A (fun t => t.mode == .awaitingKey) = true
    ∧ isNext (step (waiting 3 [15])) = true ∧ (after (step (waiting 3 [15]))).mode = .running := by decide

/-- A STEP that changes a pixel by CLS and by DRW, a byte by BCD and by STM, DT, and ST. -/
theorem witness_only_their_instructions : gives (light State.reset 0 0) 0x00E0 (fun t => !t.fb.pixel 0 0) = true
    ∧ gives State.reset 0xD005 (fun t => t.fb.pixel 0 0) = true
    ∧ gives { withV [(0, 1)] with i := 0x300 } 0xF033 (fun t => t.readByte 0x302 != 0) = true
    ∧ gives { withV [(0, 1)] with i := 0x300 } 0xF055 (fun t => t.readByte 0x300 != 0) = true
    ∧ gives (withV [(0, 1)]) 0xF015 (fun t => t.dt != 0) = true
    ∧ gives (withV [(0, 1)]) 0xF018 (fun t => t.st != 0) = true := by decide

/-- A next state and a fault, for the two statements that compare two STEPs. -/
theorem witness_two_steps : atTop.mode = .running ∧ isNext (step atTop) = true
    ∧ State.reset.mode = .running ∧ faults (step State.reset) (.unknownOpcode 0x0000) = true := by decide

theorem witness_self_jump : (State.reset.withFetchWord 16 0x1200).AtSelfJump :=
  ⟨by decide, by decide, 0x200, by decide, by decide⟩

end Sys2Proof.Tests
end

/-! # Proofs of the state family (spec/10_state.md) -/

/-! ## What an instruction can do to the state, said once -/

namespace Sys2Proof.Machine

open Claims

/-- Everything an instruction that answers a next state can have done, the part of the state it wrote named and every
other part kept. Only the written registers' values are left open; whether VF is among them is `mayWriteVF`. -/
inductive ExecEffect (s : State) (i : Instr) : State → Prop where
  /-- loads, arithmetic, logic, draws, and the instructions on I: registers, I, the count of draws -/
  | regs (v : Vector Byte 16) (iv : Word) (d : Nat) (hvf : v[15] ≠ s.v[15] → mayWriteVF i) :
      ExecEffect s i { s with v := v, i := iv, draws := d, pc := s.pc + 2 }
  /-- the skips, taken or not -/
  | skip (n : Nat) (hn : n = 2 ∨ n = 4) : ExecEffect s i (s.advance n)
  /-- 1NNN (with an offset of 0) and BNNN -/
  | jump (nnn : Addr12) (b : Byte) : ExecEffect s i { s with pc := zext16 nnn + b.setWidth 16 }
  /-- 2NNN -/
  | call (nnn : Addr12) (hi : i = .call nnn) (h : s.sp.val < 16) :
      ExecEffect s i { s with
        stack := s.stack.set s.sp.val s.pc h, sp := ⟨s.sp.val + 1, by omega⟩, pc := zext16 nnn }
  /-- 00EE -/
  | ret (hi : i = .ret) (h : 0 < s.sp.val) :
      ExecEffect s i { s with sp := ⟨s.sp.val - 1, by omega⟩, pc := s.stack[s.sp.val - 1]'(by omega) + 2 }
  /-- FX0A, the encounter step -/
  | wkey (x : Nibble) (hi : i = .wkey x) : ExecEffect s i { s with waitX := x, mode := .awaitingKey }
  /-- 00E0 -/
  | cls (hi : i = .cls) : ExecEffect s i { s with fb := Framebuffer.blank, pc := s.pc + 2 }
  /-- DXYN -/
  | drw (x y n : Nibble) (hi : i = .drw x y n) (fb : Framebuffer) (f : Byte) :
      ExecEffect s i (((s.setFb fb).setVF f).advance 2)
  /-- FX33 and FX55 -/
  | bytes (hi : ∃ x, i = .bcd x ∨ i = .stm x) (bs : List Byte) (hb : s.i.toNat + bs.length ≤ 4096) (iv : Word) :
      ExecEffect s i { s with mem := Memory.writeBytes s.mem s.i.toNat bs, i := iv, pc := s.pc + 2 }
  /-- FX15 -/
  | sdt (x : Nibble) (hi : i = .sdt x) : ExecEffect s i { s with dt := s.getV x, pc := s.pc + 2 }
  /-- FX18 -/
  | sst (x : Nibble) (hi : i = .sst x) : ExecEffect s i { s with st := s.getV x, pc := s.pc + 2 }

section EffectOfEnding

variable {s t : State} {i : Instr}

/-- A write to V[x] changes VF only for x = F. -/
theorem eq_vF_of_set_ne {v : Vector Byte 16} {x : Nibble} {b : Byte} (h : (v.set x.toNat b x.isLt)[15] ≠ v[15]) :
    x = 0xF#4 := by
  by_contra hx
  have hx15 : x.toNat ≠ 15 := fun e => hx (BitVec.eq_of_toNat_eq e)
  exact h (Vector.getElem_set_ne x.isLt (by decide) hx15)

/-- FX65 loads VF only for x = F: its last register is V[x]. -/
theorem eq_vF_of_setRegs_ne {x : Nibble} {bs : List Byte} (hbs : bs.length = x.toNat + 1)
    (h : (s.setRegs bs).v[15] ≠ s.v[15]) : x = 0xF#4 := by
  by_contra hx
  have hx15 : x.toNat ≠ 15 := fun e => hx (BitVec.eq_of_toNat_eq e)
  have hshort : bs.length ≤ 15 := by have := x.isLt; omega
  exact h (by simp [List.getD_eq_getElem?_getD, List.getElem?_eq_none hshort])

theorem ExecEffect.of_setV {x : Nibble} {b : Byte} (hvf : x = 0xF#4 → mayWriteVF i)
    (h : t = (s.setV x b).advance 2) : ExecEffect s i t :=
  h ▸ .regs _ s.i s.draws fun hne => hvf (eq_vF_of_set_ne hne)

theorem ExecEffect.of_setResultFlag {x : Nibble} {r f : Byte} (hvf : mayWriteVF i)
    (h : t = (s.setResultFlag Params.vfOrder x r f).advance 2) : ExecEffect s i t :=
  h ▸ .regs _ s.i s.draws fun _ => hvf

theorem ExecEffect.of_setI {w : Word} (h : t = (s.setI w).advance 2) : ExecEffect s i t :=
  h ▸ .regs s.v w s.draws fun hne => absurd rfl hne

theorem ExecEffect.of_skip {p : Prop} [Decidable p] (h : t = s.advance (if p then 4 else 2)) : ExecEffect s i t :=
  h ▸ .skip _ (by split <;> decide)

end EffectOfEnding

/-- The inversion of `exec`: a next state is one of the effects. -/
theorem exec_effect {i : Instr} {s t : State} (h : exec i s = .next t) : ExecEffect s i t := by
  cases i with
  | cls => exact execCls_next.1 h ▸ .cls rfl
  | ret => obtain ⟨h0, rfl⟩ := execRet_next.1 h; exact .ret rfl h0
  | jp nnn =>
    have ht : t = { s with pc := zext16 nnn + (0x00#8).setWidth 16 } := by simpa using execJp_next.1 h
    exact ht ▸ .jump nnn 0x00#8
  | call nnn => obtain ⟨h0, rfl⟩ := execCall_next.1 h; exact .call nnn rfl h0
  | jpv0 nnn => exact execJpv0_next.1 h ▸ .jump nnn _
  | sei x nn => exact .of_skip (execSei_next.1 h)
  | snei x nn => exact .of_skip (execSnei_next.1 h)
  | ser x y => exact .of_skip (execSer_next.1 h)
  | sner x y => exact .of_skip (execSner_next.1 h)
  | skp x => obtain ⟨k, -, ht⟩ := execSkp_next.1 h; exact .of_skip ht
  | sknp x => obtain ⟨k, -, ht⟩ := execSknp_next.1 h; exact .of_skip ht
  | ldi x nn => exact .of_setV id (execLdi_next.1 h)
  | addi x nn => exact .of_setV id (execAddi_next.1 h)
  | mov x y => exact .of_setV id (execMov_next.1 h)
  | or x y => exact .of_setV id (execOr_next.1 h)
  | and x y => exact .of_setV id (execAnd_next.1 h)
  | xor x y => exact .of_setV id (execXor_next.1 h)
  | gdt x => exact .of_setV id (execGdt_next.1 h)
  | rnd x nn => exact execRnd_next.1 h ▸ .regs _ s.i (s.draws + 1) eq_vF_of_set_ne
  | add x y => exact .of_setResultFlag trivial (execAdd_next.1 h)
  | sub x y => exact .of_setResultFlag trivial (execSub_next.1 h)
  | shr x y => exact .of_setResultFlag trivial ((execShr_next (y := y)).1 h)
  | shl x y => exact .of_setResultFlag trivial ((execShl_next (y := y)).1 h)
  | seti nnn => exact .of_setI (execSeti_next.1 h)
  | font x => exact .of_setI (execFont_next.1 h)
  | adi x => exact execAdi_next.1 h ▸ .regs _ _ s.draws fun _ => trivial
  | ldm x =>
    obtain ⟨-, rfl⟩ := execLdm_next.1 h
    exact .regs _ _ s.draws (eq_vF_of_setRegs_ne (Memory.length_readBytes ..))
  | drw x y n => obtain ⟨-, rfl⟩ := execDrw_next.1 h; exact .drw x y n rfl _ _
  | bcd x => obtain ⟨hb, rfl⟩ := execBcd_next.1 h; exact .bytes ⟨x, .inl rfl⟩ _ hb s.i
  | stm x =>
    obtain ⟨hb, rfl⟩ := execStm_next.1 h
    exact .bytes ⟨x, .inr rfl⟩ _ (by rw [State.length_regsTo]; exact hb) _
  | wkey x => exact execWkey_next.1 h ▸ .wkey x rfl
  | sdt x => exact execSdt_next.1 h ▸ .sdt x rfl
  | sst x => exact execSst_next.1 h ▸ .sst x rfl

namespace ExecEffect

variable {s t : State} {i : Instr}

/-! ### What changed names the instruction -/

theorem key_eq (h : ExecEffect s i t) : t.key = s.key := by cases h <;> rfl

theorem mayWriteVF_of_ne (h : ExecEffect s i t) (hne : t.getV 0xF#4 ≠ s.getV 0xF#4) : mayWriteVF i := by
  cases h with
  | regs v iv d hvf => exact hvf hne
  | drw x y n hi fb f => rw [hi]; trivial
  | _ => exact absurd rfl hne

theorem stack_changed (h : ExecEffect s i t) {k : Fin 16} (hne : t.stack[k.val] ≠ s.stack[k.val]) :
    (∃ nnn, i = .call nnn) ∧ k.val = s.sp.val ∧ t.stack[k.val] = s.pc := by
  cases h with
  | call nnn hi h0 =>
    have hk : k.val = s.sp.val := by
      by_contra hk
      exact hne (Vector.getElem_set_ne h0 k.isLt (Ne.symm hk))
    exact ⟨⟨nnn, hi⟩, hk, by simp [hk]⟩
  | _ => exact absurd rfl hne

theorem sp_changed (h : ExecEffect s i t) (hne : t.sp ≠ s.sp) :
    ((∃ nnn, i = .call nnn) ∧ t.sp.val = s.sp.val + 1) ∨ (i = .ret ∧ s.sp.val = t.sp.val + 1) := by
  cases h with
  | call nnn hi h0 => exact .inl ⟨⟨nnn, hi⟩, rfl⟩
  | ret hi h0 => exact .inr ⟨hi, (Nat.sub_add_cancel h0).symm⟩
  | _ => exact absurd rfl hne

theorem mode_changed (h : ExecEffect s i t) (hne : t.mode ≠ s.mode) : ∃ x, i = .wkey x := by
  cases h with
  | wkey x hi => exact ⟨x, hi⟩
  | _ => exact absurd rfl hne

theorem pixel_changed (h : ExecEffect s i t) {px : Fin 64} {py : Fin 32}
    (hne : t.fb.pixel px py ≠ s.fb.pixel px py) : i = .cls ∨ ∃ x y n, i = .drw x y n := by
  cases h with
  | cls hi => exact .inl hi
  | drw x y n hi fb f => exact .inr ⟨x, y, n, hi⟩
  | _ => exact absurd rfl hne

theorem byte_changed (h : ExecEffect s i t) {a : Nat} (hne : t.readByte a ≠ s.readByte a) :
    ∃ x, i = .bcd x ∨ i = .stm x := by
  cases h with
  | bytes hi bs hb iv => exact hi
  | _ => exact absurd rfl hne

theorem dt_changed (h : ExecEffect s i t) (hne : t.dt ≠ s.dt) : ∃ x, i = .sdt x := by
  cases h with
  | sdt x hi => exact ⟨x, hi⟩
  | _ => exact absurd rfl hne

theorem st_changed (h : ExecEffect s i t) (hne : t.st ≠ s.st) : ∃ x, i = .sst x := by
  cases h with
  | sst x hi => exact ⟨x, hi⟩
  | _ => exact absurd rfl hne

end ExecEffect

/-! ## What a STEP can do -/

theorem step_of_awaitingKey {s : State} (h : s.mode = .awaitingKey) : step s = waitStep s := by rw [step, h]
theorem step_of_running {s : State} (h : s.mode = .running) : step s = runStep s := by rw [step, h]

/-- What the waiting STEP leaves when it takes key k (44_keypad_timers R173). -/
def State.resume (s : State) (k : Nibble) : State :=
  ({ s with mode := .running }.setV s.waitX (k.setWidth 8)).advance 2

/-- The three things a STEP can do: wait on, end the wait with a set key, or have the effect of the decoded
instruction. -/
theorem step_cases {s t : State} (h : step s = .next t) :
    (s.mode = .awaitingKey ∧ t = s)
      ∨ (s.mode = .awaitingKey ∧ ∃ k, s.keySet k = true ∧ t = s.resume k)
      ∨ (s.mode = .running ∧ s.pc.toNat ≤ 4094
          ∧ ∃ i, decodeWord (fetchWord s) = some i ∧ ExecEffect s i t) := by
  rcases step_eq_next.1 h with ⟨hm, hw⟩ | ⟨hm, hpc, i, hd, he⟩
  · rcases waitStep_eq_next.1 hw with ⟨-, rfl⟩ | ⟨k, hk, rfl⟩
    · exact .inl ⟨hm, rfl⟩
    · exact .inr (.inl ⟨hm, k, (State.leastKey_eq_some.1 hk).1, rfl⟩)
  · exact .inr (.inr ⟨hm, hpc, i, hd, exec_effect he⟩)

/-- When a STEP changes something that the end of a wait keeps, it has run an instruction. -/
theorem step_runs_of_changed {α : Type} {s t : State} (h : step s = .next t) (f : State → α)
    (hf : ∀ k, f (s.resume k) = f s) (hne : f t ≠ f s) :
    ∃ i, decodeWord (fetchWord s) = some i ∧ ExecEffect s i t := by
  rcases step_cases h with ⟨-, rfl⟩ | ⟨-, k, -, rfl⟩ | ⟨-, -, hrun⟩
  · exact absurd rfl hne
  · exact absurd (hf k) hne
  · exact hrun

/-! ## The invariant -/

theorem add_ofNat_toNat_le {w : Word} {n b c : Nat} (hw : w.toNat ≤ b) (hc : b + n ≤ c) :
    (w + BitVec.ofNat 16 n).toNat ≤ c := by
  rw [BitVec.toNat_add, BitVec.toNat_ofNat]
  have := Nat.mod_le (w.toNat + n % 2 ^ 16) (2 ^ 16)
  have := Nat.mod_le n (2 ^ 16)
  omega

@[simp] theorem toNat_zext16 (nnn : Addr12) : (zext16 nnn).toNat = nnn.toNat := by
  have := nnn.isLt
  rw [zext16, BitVec.toNat_setWidth, Nat.mod_eq_of_lt (by omega)]

/-- NNN plus a byte never reaches 2 ^ 16 (40_flow R103). -/
theorem toNat_zext16_add (nnn : Addr12) (b : Byte) : (zext16 nnn + b.setWidth 16).toNat = nnn.toNat + b.toNat := by
  have := nnn.isLt
  have := b.isLt
  rw [BitVec.toNat_add, toNat_zext16, BitVec.toNat_setWidth, Nat.mod_eq_of_lt (a := b.toNat) (by omega),
    Nat.mod_eq_of_lt (by omega)]

namespace ExecEffect

variable {s t : State} {i : Instr}

theorem mem_wf (h : ExecEffect s i t) (hm : Memory.wf s.mem) : Memory.wf t.mem := by
  cases h with
  | bytes hi bs hb iv => exact Memory.writeBytes_wf hm bs hb
  | _ => exact hm

/-- The largest pc is BNNN's, 0xFFF + 0xFF (10_state R26). -/
theorem pc_le (h : ExecEffect s i t) (hpc : s.pc.toNat ≤ 4094) (hslots : ∀ k : Fin 16, s.stack[k.val].toNat ≤ 0xFFE) :
    t.pc.toNat ≤ 0x10FE := by
  cases h with
  | skip n hn => exact add_ofNat_toNat_le hpc (by omega)
  | jump nnn b =>
    have := nnn.isLt
    have := b.isLt
    have := toNat_zext16_add nnn b
    simp only
    omega
  | call nnn hi h0 =>
    have := nnn.isLt
    have := toNat_zext16 nnn
    simp only
    omega
  | ret hi h0 => exact add_ofNat_toNat_le (hslots ⟨s.sp.val - 1, by omega⟩) (by decide)
  | wkey x hi => exact hpc.trans (by decide)
  | _ => exact add_ofNat_toNat_le hpc (by decide)

/-- The encounter step of FX0A, the one way into the wait, keeps pc. -/
theorem pc_eq_of_mode_changed (h : ExecEffect s i t) (hne : t.mode ≠ s.mode) : t.pc = s.pc := by
  cases h with
  | wkey x hi => rfl
  | _ => exact absurd rfl hne

theorem slots_le (h : ExecEffect s i t) (hpc : s.pc.toNat ≤ 4094)
    (hslots : ∀ k : Fin 16, s.stack[k.val].toNat ≤ 0xFFE) (k : Fin 16) : t.stack[k.val].toNat ≤ 0xFFE := by
  by_cases hk : t.stack[k.val] = s.stack[k.val]
  · rw [hk]; exact hslots k
  · rw [(h.stack_changed hk).2.2]; exact hpc

end ExecEffect

/-- Settles O45: the effects of the instructions one by one, and the end of a wait from a pc of at most 0xFFE. -/
theorem stepKeepsTheInvariant : Obligations.StepKeepsTheInvariant := by
  intro s t ⟨hmem, hpc, hwait, hslots⟩ h
  rcases step_cases h with ⟨-, rfl⟩ | ⟨hm, k, -, rfl⟩ | ⟨hm, hpc', i, -, he⟩
  · exact ⟨hmem, hpc, hwait, hslots⟩
  · exact ⟨hmem, add_ofNat_toNat_le (hwait hm) (by decide), fun hr => (nomatch hr), hslots⟩
  · refine ⟨he.mem_wf hmem, he.pc_le hpc' hslots, fun hw => ?_, he.slots_le hpc' hslots⟩
    rw [he.pc_eq_of_mode_changed (by simp [hw, hm])]
    exact hpc'

/-- Settles O46: no cell is listed, and every bound holds of the reset values. -/
theorem resetHasTheInvariant : Obligations.ResetHasTheInvariant :=
  ⟨reset_mem_wf, by decide, fun h => (nomatch h), by decide⟩

theorem State.hostReset_inv (s : State) : s.hostReset.Inv := resetHasTheInvariant

/-- LOAD writes within memory, and changes nothing else. -/
theorem State.load_inv {s t : State} {bs : List Byte} (hs : s.Inv) (h : s.load bs = some t) : t.Inv := by
  obtain ⟨hmem, hrest⟩ := hs
  simp only [State.load, Config.progMax, Option.ite_none_left_eq_some, Option.some.injEq] at h
  obtain ⟨hlen, rfl⟩ := h
  exact ⟨Memory.writeBytes_wf hmem bs (by simp only [Config.progBase, Config.memSize]; omega), hrest⟩

theorem hostStep_inv {s : State} (hs : s.Inv) : (hostStep s).2.Inv := by
  unfold hostStep
  cases h : step s with
  | next t => exact stepKeepsTheInvariant s t hs h
  | fault f => exact hs
  | refused r => exact hs

theorem hostLoad_inv {s : State} (hs : s.Inv) (bs : List Byte) : (hostLoad bs s).2.Inv := by
  unfold hostLoad
  cases h : s.load bs with
  | some t => exact State.load_inv hs h
  | none => exact hs

theorem HostOp.run_inv {s : State} (hs : s.Inv) (op : HostOp) : (op.run s).2.Inv := by
  cases op with
  | reset => exact s.hostReset_inv
  | load bs => exact hostLoad_inv hs bs
  | step => exact hostStep_inv hs
  | tick | setKey | snapshot | readDt | readSt => exact hs

theorem runOps_inv {s : State} (hs : s.Inv) (ops : List HostOp) : (runOps ops s).2.Inv := by
  induction ops generalizing s with
  | nil => exact hs
  | cons op ops ih => exact ih (HostOp.run_inv hs op)

/-- Settles O47, by induction on the sequence of operations. -/
theorem reachableStatesKeepTheInvariant : Obligations.ReachableStatesKeepTheInvariant := by
  rintro s ⟨ops, rfl⟩
  exact runOps_inv resetHasTheInvariant ops

/-! ## Rules about the whole machine -/

/-- Settles O54: the effects that leave the registers alone keep VF, the others say who may write it. -/
theorem onlyTheListedInstructionsWriteVF : Obligations.OnlyTheListedInstructionsWriteVF :=
  fun _ _ _ h hne => (exec_effect h).mayWriteVF_of_ne hne

/-- Settles O55: a changed slot or a changed sp names CALL or RET. -/
theorem onlyCallAndReturnTouchTheStack : Obligations.OnlyCallAndReturnTouchTheStack := by
  refine fun s t h => ⟨fun k hne => ?_, fun hne => ?_⟩
  · obtain ⟨i, hd, he⟩ := step_runs_of_changed h (·.stack[k.val]) (fun _ => rfl) hne
    obtain ⟨⟨nnn, rfl⟩, hk, hpc⟩ := he.stack_changed hne
    exact ⟨⟨nnn, hd⟩, hk, hpc⟩
  · obtain ⟨i, hd, he⟩ := step_runs_of_changed h (·.sp) (fun _ => rfl) hne
    obtain ⟨⟨nnn, rfl⟩, hsp⟩ | ⟨rfl, hsp⟩ := he.sp_changed hne
    · exact .inl ⟨⟨nnn, hd⟩, hsp⟩
    · exact .inr ⟨hd, hsp⟩

theorem step_key_eq {s t : State} (h : step s = .next t) : t.key = s.key := by
  by_contra hne
  obtain ⟨i, -, he⟩ := step_runs_of_changed h (·.key) (fun _ => rfl) hne
  exact hne he.key_eq

/-- Settles O56, by the three things a STEP can do. -/
theorem keysAreReadOnlyAndTheWaitNeedsOne : Obligations.KeysAreReadOnlyAndTheWaitNeedsOne := by
  refine fun s t h => ⟨State.keySet_congr (step_key_eq h), fun hs ht => ?_, fun hs ht => ?_⟩
  · rcases step_cases h with ⟨hm, -⟩ | ⟨hm, -⟩ | ⟨-, -, i, hd, he⟩
    · cases hs.symm.trans hm
    · cases hs.symm.trans hm
    · obtain ⟨x, rfl⟩ := he.mode_changed (by simp [hs, ht])
      exact ⟨x, hd⟩
  · rcases step_cases h with ⟨-, rfl⟩ | ⟨-, k, hk, -⟩ | ⟨hm, -⟩
    · cases hs.symm.trans ht
    · exact ⟨k, hk⟩
    · cases hs.symm.trans hm

/-- Settles O57: the end of a wait keeps all four, and a change of one names the instruction. -/
theorem pixelsBytesAndTimersChangeOnlyByTheirInstructions :
    Obligations.PixelsBytesAndTimersChangeOnlyByTheirInstructions := by
  refine fun s t h => ⟨fun px py hne => ?_, fun a hne => ?_, fun hne => ?_, fun hne => ?_⟩
  · obtain ⟨i, hd, he⟩ := step_runs_of_changed h (·.fb.pixel px py) (fun _ => rfl) hne
    obtain rfl | ⟨x, y, n, rfl⟩ := he.pixel_changed hne
    · exact .inl hd
    · exact .inr ⟨x, y, n, hd⟩
  · obtain ⟨i, hd, he⟩ := step_runs_of_changed h (·.readByte a) (fun _ => rfl) hne
    obtain ⟨x, rfl | rfl⟩ := he.byte_changed hne
    · exact ⟨x, .inl hd⟩
    · exact ⟨x, .inr hd⟩
  · obtain ⟨i, hd, he⟩ := step_runs_of_changed h (·.dt) (fun _ => rfl) hne
    obtain ⟨x, rfl⟩ := he.dt_changed hne
    exact ⟨x, hd⟩
  · obtain ⟨i, hd, he⟩ := step_runs_of_changed h (·.st) (fun _ => rfl) hne
    obtain ⟨x, rfl⟩ := he.st_changed hne
    exact ⟨x, hd⟩

/-! ## The list of new pcs (10_state R25) -/

theorem keyIndex_params_eq_ok {b : Byte} {k : Nibble} (h : keyIndex Params.keyIndexPolicy b = .ok k) :
    k.toNat = b.toNat := by
  rcases Nat.lt_or_ge 15 b.toNat with hb | hb
  · rw [Params.keyIndexPolicy, keyIndex_fault_of_gt hb] at h
    cases h
  · rw [keyIndex_of_le hb] at h
    cases h
    rw [BitVec.toNat_setWidth, Nat.mod_eq_of_lt (by omega)]

/-- A skip on a condition adds 4 where it holds, else 2. -/
theorem pc_of_skip {s t : State} {p : Prop} [Decidable p] (h : t = s.advance (if p then 4 else 2)) :
    t.pc = s.pc + (if p then 4 else 2) := by
  rw [h, State.advance_pc]
  split <;> rfl

/-- A skip on the negated condition adds 2 where the condition holds, else 4. -/
theorem pc_of_skip_not {s t : State} {p : Prop} [Decidable p] (h : t = s.advance (if ¬p then 4 else 2)) :
    t.pc = s.pc + (if p then 2 else 4) := by
  rw [pc_of_skip h, ite_not]

/-- Settles O53, from the next state of each instruction. -/
theorem pcAdvancesAsListed : Obligations.PcAdvancesAsListed := by
  intro i s t h
  cases i with
  | jp nnn => rw [execJp_next.1 h]; exact toNat_zext16 nnn
  | call nnn => obtain ⟨-, rfl⟩ := execCall_next.1 h; exact toNat_zext16 nnn
  | jpv0 nnn => rw [execJpv0_next.1 h]; exact toNat_zext16_add nnn (s.getV 0x0#4)
  | ret =>
    obtain ⟨h0, rfl⟩ := execRet_next.1 h
    have := s.sp.isLt
    exact ⟨show s.sp.val - 1 < 16 by omega, Nat.sub_add_cancel h0, rfl⟩
  | sei x nn => exact pc_of_skip (execSei_next.1 h)
  | snei x nn => exact pc_of_skip_not (execSnei_next.1 h)
  | ser x y => exact pc_of_skip (execSer_next.1 h)
  | sner x y => exact pc_of_skip_not (execSner_next.1 h)
  | skp x =>
    obtain ⟨k, hk, ht⟩ := execSkp_next.1 h
    intro j hj
    obtain rfl : j = k := BitVec.eq_of_toNat_eq (hj.trans (keyIndex_params_eq_ok hk).symm)
    exact pc_of_skip ht
  | sknp x =>
    obtain ⟨k, hk, ht⟩ := execSknp_next.1 h
    intro j hj
    obtain rfl : j = k := BitVec.eq_of_toNat_eq (hj.trans (keyIndex_params_eq_ok hk).symm)
    exact pc_of_skip_not (by simpa using ht)
  | wkey x => rw [execWkey_next.1 h]; rfl
  | cls => exact congrArg State.pc (execCls_next.1 h)
  | ldi x nn => exact congrArg State.pc (execLdi_next.1 h)
  | addi x nn => exact congrArg State.pc (execAddi_next.1 h)
  | mov x y => exact congrArg State.pc (execMov_next.1 h)
  | or x y => exact congrArg State.pc (execOr_next.1 h)
  | and x y => exact congrArg State.pc (execAnd_next.1 h)
  | xor x y => exact congrArg State.pc (execXor_next.1 h)
  | add x y => exact congrArg State.pc (execAdd_next.1 h)
  | sub x y => exact congrArg State.pc (execSub_next.1 h)
  | shr x y => exact congrArg State.pc ((execShr_next (y := y)).1 h)
  | shl x y => exact congrArg State.pc ((execShl_next (y := y)).1 h)
  | seti nnn => exact congrArg State.pc (execSeti_next.1 h)
  | rnd x nn => exact congrArg State.pc (execRnd_next.1 h)
  | drw x y n => exact congrArg State.pc (execDrw_next.1 h).2
  | gdt x => exact congrArg State.pc (execGdt_next.1 h)
  | sdt x => exact congrArg State.pc (execSdt_next.1 h)
  | sst x => exact congrArg State.pc (execSst_next.1 h)
  | adi x => exact congrArg State.pc (execAdi_next.1 h)
  | font x => exact congrArg State.pc (execFont_next.1 h)
  | bcd x => exact congrArg State.pc (execBcd_next.1 h).2
  | stm x => exact congrArg State.pc (execStm_next.1 h).2
  | ldm x => exact congrArg State.pc (execLdm_next.1 h).2

/-! ## What a STEP does not read -/

/-- The state with ST and wait_x passed through functions, all else kept. -/
def State.mapLatches (g : Byte → Byte) (w : Nibble → Nibble) (s : State) : State :=
  { s with st := g s.st, waitX := w s.waitX }

/-- The outcome with its next state, if it has one, passed through a function. -/
def mapNext (f : State → State) : Result → Result
  | .next t => .next (f t)
  | .fault r => .fault r
  | .refused r => .refused r

/-- What is left of a change of ST after an instruction: nothing when it writes ST. -/
def stLeft : Instr → (Byte → Byte) → Byte → Byte
  | .sst _, _ => id
  | _, g => g

/-- What is left of a change of wait_x after an instruction: nothing when it latches X. -/
def waitXLeft : Instr → (Nibble → Nibble) → Nibble → Nibble
  | .wkey _, _ => id
  | _, w => w

theorem stLeft_id (i : Instr) : stLeft i id = id := by cases i <;> rfl
theorem waitXLeft_id (i : Instr) : waitXLeft i id = id := by cases i <;> rfl

section Latches

variable (g : Byte → Byte) (w : Nibble → Nibble) (s : State)

theorem State.getV_mapLatches (k : Nibble) : (s.mapLatches g w).getV k = s.getV k := rfl
theorem State.i_mapLatches : (s.mapLatches g w).i = s.i := rfl
theorem State.pc_mapLatches : (s.mapLatches g w).pc = s.pc := rfl
theorem State.leastKey_mapLatches : (s.mapLatches g w).leastKey = s.leastKey := rfl
theorem fetchFault_mapLatches : fetchFault (s.mapLatches g w) = fetchFault s := rfl
theorem fetchWord_mapLatches : fetchWord (s.mapLatches g w) = fetchWord s := rfl

theorem State.push_mapLatches (a : Word) :
    (s.mapLatches g w).push a = (s.push a).map (State.mapLatches g w) := by
  by_cases h : s.sp.val < 16
  · rw [State.push_eq_some.2 ⟨h, rfl⟩]; exact State.push_eq_some.2 ⟨h, rfl⟩
  · have h16 : s.sp.val = 16 := by omega
    rw [State.push_eq_none.2 h16]; exact State.push_eq_none.2 h16

theorem State.pop_mapLatches :
    (s.mapLatches g w).pop = s.pop.map fun p => (p.1, p.2.mapLatches g w) := by
  by_cases h : 0 < s.sp.val
  · rw [State.pop_eq_some.2 ⟨h, rfl, rfl⟩]; exact State.pop_eq_some.2 ⟨h, rfl, rfl⟩
  · have h0 : s.sp.val = 0 := by omega
    rw [State.pop_eq_none.2 h0]; exact State.pop_eq_none.2 h0

theorem execRet_mapLatches : execRet (s.mapLatches g w) = mapNext (.mapLatches g w) (execRet s) := by
  unfold execRet
  rw [State.pop_mapLatches]
  cases s.pop <;> rfl

theorem execCall_mapLatches (nnn : Addr12) :
    execCall nnn (s.mapLatches g w) = mapNext (.mapLatches g w) (execCall nnn s) := by
  unfold execCall
  rw [State.pc_mapLatches, State.push_mapLatches]
  cases s.push s.pc <;> rfl

theorem skipOnKey_mapLatches (x : Nibble) (want : Bool) :
    skipOnKey x want (s.mapLatches g w) = mapNext (.mapLatches g w) (skipOnKey x want s) := by
  unfold skipOnKey
  rw [State.getV_mapLatches]
  cases keyIndex Params.keyIndexPolicy (s.getV x) <;> rfl

theorem atI_mapLatches (n : Nat) {body body' : Result} (h : body' = mapNext (.mapLatches g w) body) :
    atI (s.mapLatches g w) n body' = mapNext (.mapLatches g w) (atI s n body) := by
  unfold atI
  rw [State.i_mapLatches, h]
  cases accessFault s.i.toNat n <;> rfl

/-- No instruction reads ST or wait_x: a change of them beforehand is the same change afterwards, but for the one the
instruction itself writes. -/
theorem exec_mapLatches (i : Instr) : exec i (s.mapLatches g w)
    = mapNext (.mapLatches (stLeft i g) (waitXLeft i w)) (exec i s) := by
  cases i with
  | ret => exact execRet_mapLatches g w s
  | call nnn => exact execCall_mapLatches g w s nnn
  | skp x => exact skipOnKey_mapLatches g w s x true
  | sknp x => exact skipOnKey_mapLatches g w s x false
  | drw x y n => exact atI_mapLatches g w s n.toNat rfl
  | bcd x => exact atI_mapLatches g w s 3 rfl
  | stm x => exact atI_mapLatches g w s (x.toNat + 1) rfl
  | ldm x => exact atI_mapLatches g w s (x.toNat + 1) rfl
  | _ => rfl

theorem waitStep_mapLatches : waitStep (s.mapLatches g id) = mapNext (.mapLatches g id) (waitStep s) := by
  unfold waitStep
  rw [State.leastKey_mapLatches]
  cases s.leastKey <;> rfl

/-- A Running STEP reads neither ST nor wait_x. -/
theorem runStep_mapLatches : ∃ g' w', runStep (s.mapLatches g w) = mapNext (.mapLatches g' w') (runStep s)
    ∧ (g = id → g' = id) ∧ (w = id → w' = id) := by
  unfold runStep
  rw [fetchFault_mapLatches, fetchWord_mapLatches]
  cases fetchFault s with
  | some f => exact ⟨g, w, rfl, id, id⟩
  | none =>
    cases decodeWord (fetchWord s) with
    | none => exact ⟨g, w, by simp [Params.hasSubn, unknownWord_false, mapNext], id, id⟩
    | some i =>
      exact ⟨stLeft i g, waitXLeft i w, exec_mapLatches g w s i, fun hg => hg ▸ stLeft_id i,
        fun hw => hw ▸ waitXLeft_id i⟩

end Latches

/-- Settles O58: the waiting STEP and the Running one. -/
theorem noStepReadsTheSoundTimer : Obligations.NoStepReadsTheSoundTimer := by
  intro s b
  have hstep : ∃ g, step (s.mapLatches (fun _ => b) id) = mapNext (.mapLatches g id) (step s) := by
    cases hm : s.mode with
    | awaitingKey =>
      rw [step_of_awaitingKey hm, step_of_awaitingKey (s := s.mapLatches _ _) hm]
      exact ⟨_, waitStep_mapLatches _ s⟩
    | running =>
      rw [step_of_running hm, step_of_running (s := s.mapLatches _ _) hm]
      obtain ⟨g, w, h, -, hw⟩ := runStep_mapLatches (fun _ => b) id s
      exact ⟨g, hw rfl ▸ h⟩
  obtain ⟨g, h⟩ := hstep
  exact ⟨fun t ht => ⟨g t.st, h.trans (congrArg _ ht)⟩, fun f hf => h.trans (congrArg _ hf)⟩

/-- Settles O59: in Running mode a STEP is `runStep`, which passes a change of wait_x on. -/
theorem noRunningStepReadsTheWaitLatch : Obligations.NoRunningStepReadsTheWaitLatch := by
  intro s w hm
  obtain ⟨g', w', h, hg, -⟩ := runStep_mapLatches id (fun _ => w) s
  rw [hg rfl, ← step_of_running hm, ← step_of_running (s := s.mapLatches _ _) hm] at h
  exact ⟨fun t ht => ⟨w' t.waitX, h.trans (congrArg _ ht)⟩, fun f hf => h.trans (congrArg _ hf)⟩

/-! ## RESET -/

theorem length_fontData : Params.fontData.length = 80 := rfl

theorem resetByte_of_lt {a : Nat} (h : a < 80) : some (resetByte a) = Params.fontData[a]? := by
  unfold resetByte
  rw [List.getElem?_eq_getElem (length_fontData ▸ h)]

theorem resetByte_of_le {a : Nat} (h : 80 ≤ a) : resetByte a = Params.memInit a := by
  unfold resetByte
  rw [List.getElem?_eq_none (length_fontData ▸ h)]

/-- Settles O40: the fields are the table's by definition, and memory lists nothing. -/
theorem resetLeavesTheTable : Obligations.ResetLeavesTheTable := by
  intro s
  refine ⟨s.hostReset, rfl, fun k => ?_, rfl, rfl, rfl, fun k => ?_, rfl, rfl, rfl, rfl, Framebuffer.pixel_blank,
    fun k => ?_, fun a ha => resetByte_of_lt ha, fun a ha _ => resetByte_of_le ha⟩
  · exact Vector.getElem_replicate k.isLt
  · exact Vector.getElem_replicate k.isLt
  · exact Vector.getElem_replicate k.isLt

end Sys2Proof.Machine

/-! # Proofs of the memory family (spec/20_memory.md) -/

namespace Sys2Proof.Machine

/-- FX55 moves every byte of V[0]..V[x] (42_index_memory R145) to where a read finds it (R53). -/
theorem readByte_of_exec_stm {s t : State} {x k : Nibble} (hm : Memory.wf s.mem) (h : exec (.stm x) s = .next t)
    (hk : k.toNat ≤ x.toNat) : t.readByte (s.i.toNat + k.toNat) = s.getV k := by
  obtain ⟨hb, rfl⟩ := execStm_next.1 h
  have hlen := s.length_regsTo x
  calc Memory.read (Memory.writeBytes s.mem s.i.toNat (s.regsTo x)) (s.i.toNat + k.toNat)
      = (s.regsTo x).getD (s.i.toNat + k.toNat - s.i.toNat) 0 := by
        rw [Memory.read_writeBytes hm _ (by rw [hlen]; exact hb), if_pos (by omega)]
    _ = s.getV k := by rw [Nat.add_sub_cancel_left, s.getD_regsTo x k hk]

/-- Settles O32: the two bytes the next fetch reads are the two that FX55 stored there. -/
theorem storedCodeIsFetchedNext : Obligations.StoredCodeIsFetchedNext := by
  intro s t x a b hm hpc h ha hab hb hi
  have htpc : t.pc.toNat = s.i.toNat + a.toNat := by
    obtain ⟨-, rfl⟩ := execStm_next.1 h
    change (s.pc + 2).toNat = _
    bv_omega
  rw [fetchWord, htpc, Nat.add_assoc, ← hab, readByte_of_exec_stm hm h ha, readByte_of_exec_stm hm h hb]

/-- Settles O31: each of the four is one access to its range at I, checked as a whole. -/
theorem outOfRangeAccessesFault : Obligations.OutOfRangeAccessesFault := by
  refine fun s x y n => ⟨fun h => ?bcd, fun h => ⟨?stm, ?ldm⟩, fun hn h => ?drw⟩
  case bcd => exact atI_of_outOfBounds (by omega) _
  case stm | ldm => exact atI_of_outOfBounds (by omega) _
  case drw =>
    have hpos : 0 < n.toNat := Nat.pos_of_ne_zero fun h0 => hn (BitVec.eq_of_toNat_eq h0)
    exact atI_of_outOfBounds ⟨hpos, h⟩ _

end Sys2Proof.Machine

/-! # Proofs of the encoding family (spec/30_encoding.md) -/

namespace Sys2Proof

/-! ## Decode of encode -/

/-- R72, R78: the decoder reads back the family, then each operand from its own field; one line a format or sub-decoder. -/
theorem decodeWord_encode (i : Instr) : decodeWord (encode i) = some i := by
  cases i with
  | cls | ret => decide
  | jp | call | seti | jpv0 => simp [encode, decodeWord]
  | sei | snei | ldi | addi | rnd => simp [encode, decodeWord]
  | ser | sner | drw => simp [encode, decodeWord]
  | mov | or | and | xor | add | sub | shr | shl => simp [encode, decodeWord, decodeAlu]
  | skp | sknp => simp [encode, decodeWord, decodeKey]
  | gdt | wkey | sdt | sst | adi | font | bcd | stm | ldm => simp [encode, decodeWord, decodeMisc]

/-- Settles O1: the two bytes of an encoding make its word again. -/
theorem decodeOfEncode : Obligations.DecodeOfEncode := by
  refine fun i rest _ => ⟨decodeWord_encode i, ?_⟩
  simp [encodeBytes, decodeBytes, decodeWord_encode]

/-! ## Encode of decode -/

section EncodeOfDecode

variable {op : Word} {t x y n : Nibble} {nn : Byte} {i : Instr}

theorem formatA_of_fieldT (h : fieldT op = t) : formatA t (fieldNNN op) = op := h ▸ formatA_fields op

theorem formatI_of_fieldT (h : fieldT op = t) : formatI t (fieldX op) (fieldNN op) = op := h ▸ formatI_fields op

theorem formatR_of_fieldT (h : fieldT op = t) : formatR t (fieldX op) (fieldY op) (fieldN op) = op :=
  h ▸ formatR_fields op

/-- The sixteen families of R74. -/
theorem family_cases : ∀ t : Nibble, t = 0x0#4 ∨ t = 0x1#4 ∨ t = 0x2#4 ∨ t = 0x3#4 ∨ t = 0x4#4 ∨ t = 0x5#4 ∨ t = 0x6#4
    ∨ t = 0x7#4 ∨ t = 0x8#4 ∨ t = 0x9#4 ∨ t = 0xA#4 ∨ t = 0xB#4 ∨ t = 0xC#4 ∨ t = 0xD#4 ∨ t = 0xE#4 ∨ t = 0xF#4 := by
  decide

theorem encode_of_some {j : Instr} (h : some j = some i) (hj : encode j = op) : encode i = op :=
  Option.some.inj h ▸ hj

/-- The two families whose low digit has to be 0 (D2). -/
theorem encode_of_ite_fieldN {j : Instr} (h : (if fieldN op = 0x0#4 then some j else none) = some i)
    (ht : fieldT op = t) (hj : encode j = formatR t (fieldX op) (fieldY op) 0x0#4) : encode i = op := by
  obtain ⟨hn, h⟩ := Option.ite_none_right_eq_some.1 h
  exact encode_of_some h (hj.trans (hn ▸ formatR_of_fieldT ht))

theorem encode_of_decodeSystem (h : decodeSystem op = some i) : encode i = op := by
  unfold decodeSystem at h
  split_ifs at h <;> cases h
  all_goals subst op; rfl

theorem encode_of_decodeAlu (h : decodeAlu x y n = some i) : encode i = formatR 0x8#4 x y n := by
  unfold decodeAlu at h
  split_ifs at h <;> cases h
  all_goals subst n; rfl

theorem encode_of_decodeKey (h : decodeKey x nn = some i) : encode i = formatI 0xE#4 x nn := by
  unfold decodeKey at h
  split_ifs at h <;> cases h
  all_goals subst nn; rfl

theorem encode_of_decodeMisc (h : decodeMisc x nn = some i) : encode i = formatI 0xF#4 x nn := by
  unfold decodeMisc at h
  split_ifs at h <;> cases h
  all_goals subst nn; rfl

end EncodeOfDecode

/-- Settles O2: in each branch of R74 the fields the decoder took are all of the word (R73). -/
theorem encodeOfDecode : Obligations.EncodeOfDecode := by
  intro op i h
  rcases family_cases (fieldT op) with
    ht | ht | ht | ht | ht | ht | ht | ht | ht | ht | ht | ht | ht | ht | ht | ht
  all_goals rw [decodeWord, ht] at h
  · exact encode_of_decodeSystem h                                 -- 00E0, 00EE
  · exact encode_of_some h (formatA_of_fieldT ht)                  -- 1NNN
  · exact encode_of_some h (formatA_of_fieldT ht)                  -- 2NNN
  · exact encode_of_some h (formatI_of_fieldT ht)                  -- 3XNN
  · exact encode_of_some h (formatI_of_fieldT ht)                  -- 4XNN
  · exact encode_of_ite_fieldN h ht rfl                            -- 5XY0
  · exact encode_of_some h (formatI_of_fieldT ht)                  -- 6XNN
  · exact encode_of_some h (formatI_of_fieldT ht)                  -- 7XNN
  · exact (encode_of_decodeAlu h).trans (formatR_of_fieldT ht)     -- 8XYn
  · exact encode_of_ite_fieldN h ht rfl                            -- 9XY0
  · exact encode_of_some h (formatA_of_fieldT ht)                  -- ANNN
  · exact encode_of_some h (formatA_of_fieldT ht)                  -- BNNN
  · exact encode_of_some h (formatI_of_fieldT ht)                  -- CXNN
  · exact encode_of_some h (formatR_of_fieldT ht)                  -- DXYN
  · exact (encode_of_decodeKey h).trans (formatI_of_fieldT ht)     -- EXnn
  · exact (encode_of_decodeMisc h).trans (formatI_of_fieldT ht)    -- FXnn

/-! ## The constructor family as one fact -/

/-- `Laws.Shape` for every instruction: its written form is well-formed, and its word matches its own row. -/
theorem Laws.Shape.all : ∀ i : Instr, Shape.Statement i
  | .cls => Shape.cls
  | .ret => Shape.ret
  | .jp .. => Shape.jp ..
  | .call .. => Shape.call ..
  | .sei .. => Shape.sei ..
  | .snei .. => Shape.snei ..
  | .ser .. => Shape.ser ..
  | .ldi .. => Shape.ldi ..
  | .addi .. => Shape.addi ..
  | .mov .. => Shape.mov ..
  | .or .. => Shape.or ..
  | .and .. => Shape.and ..
  | .xor .. => Shape.xor ..
  | .add .. => Shape.add ..
  | .sub .. => Shape.sub ..
  | .shr .. => Shape.shr ..
  | .shl .. => Shape.shl ..
  | .sner .. => Shape.sner ..
  | .seti .. => Shape.seti ..
  | .jpv0 .. => Shape.jpv0 ..
  | .rnd .. => Shape.rnd ..
  | .drw .. => Shape.drw ..
  | .skp .. => Shape.skp ..
  | .sknp .. => Shape.sknp ..
  | .gdt .. => Shape.gdt ..
  | .wkey .. => Shape.wkey ..
  | .sdt .. => Shape.sdt ..
  | .sst .. => Shape.sst ..
  | .adi .. => Shape.adi ..
  | .font .. => Shape.font ..
  | .bcd .. => Shape.bcd ..
  | .stm .. => Shape.stm ..
  | .ldm .. => Shape.ldm ..

/-! ## The table of masks (R77) -/

section Masks

variable {op : Word} {t n : Nibble} {nn : Byte}

/-! A mask keeps the digits a row fixes, so a word that matches the row is the row's format with those digits. -/

theorem formatA_of_mask (h : op &&& 0xF000#16 = formatA t 0) : formatA t (fieldNNN op) = op := by
  rw [← formatA_fields op, formatA_mask] at h
  have ht : fieldT op = t := by simpa using congrArg fieldT h
  exact formatA_of_fieldT ht

theorem formatI_of_mask (h : op &&& 0xF000#16 = formatI t 0 0) : formatI t (fieldX op) (fieldNN op) = op := by
  rw [← formatI_fields op, formatI_mask] at h
  have ht : fieldT op = t := by simpa using congrArg fieldT h
  exact formatI_of_fieldT ht

theorem formatR_of_mask (h : op &&& 0xF000#16 = formatR t 0 0 0) :
    formatR t (fieldX op) (fieldY op) (fieldN op) = op := by
  rw [← formatR_fields op, formatR_mask] at h
  have ht : fieldT op = t := by simpa using congrArg fieldT h
  exact formatR_of_fieldT ht

theorem formatI_of_maskLow (h : op &&& 0xF0FF#16 = formatI t 0 nn) : formatI t (fieldX op) nn = op := by
  rw [← formatI_fields op, formatI_maskLow] at h
  have ht : fieldT op = t := by simpa using congrArg fieldT h
  have hn : fieldNN op = nn := by simpa using congrArg fieldNN h
  exact hn ▸ formatI_of_fieldT ht

theorem formatR_of_maskLow (h : op &&& 0xF00F#16 = formatR t 0 0 n) : formatR t (fieldX op) (fieldY op) n = op := by
  rw [← formatR_fields op, formatR_maskLow] at h
  have ht : fieldT op = t := by simpa using congrArg fieldT h
  have hn : fieldN op = n := by simpa using congrArg fieldN h
  exact hn ▸ formatR_of_fieldT ht

end Masks

/-- A word that matches a row is the word of an instruction of that row, row by row of R78. -/
theorem exists_encode_of_mask {op : Word} {m : Mnemonic} (h : op &&& m.maskMatch.1 = m.maskMatch.2) :
    ∃ i : Instr, i.mnemonic = m ∧ encode i = op := by
  cases m with
  | CLS => exact ⟨.cls, rfl, (BitVec.and_allOnes.symm.trans h).symm⟩
  | RET => exact ⟨.ret, rfl, (BitVec.and_allOnes.symm.trans h).symm⟩
  | JP => exact ⟨.jp _, rfl, formatA_of_mask h⟩
  | CALL => exact ⟨.call _, rfl, formatA_of_mask h⟩
  | SEI => exact ⟨.sei _ _, rfl, formatI_of_mask h⟩
  | SNEI => exact ⟨.snei _ _, rfl, formatI_of_mask h⟩
  | SER => exact ⟨.ser _ _, rfl, formatR_of_maskLow h⟩
  | LDI => exact ⟨.ldi _ _, rfl, formatI_of_mask h⟩
  | ADDI => exact ⟨.addi _ _, rfl, formatI_of_mask h⟩
  | MOV => exact ⟨.mov _ _, rfl, formatR_of_maskLow h⟩
  | OR => exact ⟨.or _ _, rfl, formatR_of_maskLow h⟩
  | AND => exact ⟨.and _ _, rfl, formatR_of_maskLow h⟩
  | XOR => exact ⟨.xor _ _, rfl, formatR_of_maskLow h⟩
  | ADD => exact ⟨.add _ _, rfl, formatR_of_maskLow h⟩
  | SUB => exact ⟨.sub _ _, rfl, formatR_of_maskLow h⟩
  | SHR => exact ⟨.shr _ _, rfl, formatR_of_maskLow h⟩
  | SHL => exact ⟨.shl _ _, rfl, formatR_of_maskLow h⟩
  | SNER => exact ⟨.sner _ _, rfl, formatR_of_maskLow h⟩
  | SETI => exact ⟨.seti _, rfl, formatA_of_mask h⟩
  | JPV0 => exact ⟨.jpv0 _, rfl, formatA_of_mask h⟩
  | RND => exact ⟨.rnd _ _, rfl, formatI_of_mask h⟩
  | DRW => exact ⟨.drw _ _ _, rfl, formatR_of_mask h⟩
  | SKP => exact ⟨.skp _, rfl, formatI_of_maskLow h⟩
  | SKNP => exact ⟨.sknp _, rfl, formatI_of_maskLow h⟩
  | GDT => exact ⟨.gdt _, rfl, formatI_of_maskLow h⟩
  | WKEY => exact ⟨.wkey _, rfl, formatI_of_maskLow h⟩
  | SDT => exact ⟨.sdt _, rfl, formatI_of_maskLow h⟩
  | SST => exact ⟨.sst _, rfl, formatI_of_maskLow h⟩
  | ADI => exact ⟨.adi _, rfl, formatI_of_maskLow h⟩
  | FONT => exact ⟨.font _, rfl, formatI_of_maskLow h⟩
  | BCD => exact ⟨.bcd _, rfl, formatI_of_maskLow h⟩
  | STM => exact ⟨.stm _, rfl, formatI_of_maskLow h⟩
  | LDM => exact ⟨.ldm _, rfl, formatI_of_maskLow h⟩

/-- Settles O3: decoding and encoding are inverse, so the rows a word matches are those of its instruction. -/
theorem decodeAgreesWithTheTable : Obligations.DecodeAgreesWithTheTable := by
  refine fun op m => ⟨?_, fun h => ?_⟩
  · rintro ⟨i, hi, rfl⟩
    obtain ⟨-, hmatch⟩ := Laws.Shape.all i
    exact encodeOfDecode op i hi ▸ eq_of_beq hmatch
  · obtain ⟨i, hm, rfl⟩ := exists_encode_of_mask h
    exact ⟨i, decodeWord_encode i, hm⟩

/-! ## The written form -/

/-- R82, R83: each printed operand value is its field's, and a Y that is not printed is 0. -/
theorem Instr.fields_toLine (i : Instr) : i.toLine.fields = some i := by
  cases i with
  | shr x y | shl x y =>
    simp only [Instr.toLine, Instr.operands]
    split
    · next hy => simp [Instr.mnemonic, SourceLine.fields, hy]
    · simp [Instr.mnemonic, SourceLine.fields]
  | _ => simp [Instr.toLine, Instr.mnemonic, Instr.operands, SourceLine.fields]

/-- Settles O6: the check accepts the line (`Laws.Shape`), so it stands for what its fields make. -/
theorem assemblesWhatItDisassembles : Obligations.AssemblesWhatItDisassembles := by
  intro i
  obtain ⟨hwf, -⟩ := Laws.Shape.all i
  exact ⟨hwf, (if_pos hwf).trans i.fields_toLine⟩

end Sys2Proof

/-! # Proofs of the flow family (spec/40_flow.md) -/

namespace Sys2Proof.Machine

/-! ## Calls and returns -/

theorem execRet_of_empty {s : State} (h : s.sp.val = 0) : execRet s = .fault .stackUnderflow := by
  rw [execRet, State.pop_eq_none.2 h]; rfl

theorem execCall_of_full {s : State} {nnn : Addr12} (h : s.sp.val = 16) : execCall nnn s = .fault .stackOverflow := by
  rw [execCall, State.push_eq_none.2 h]; rfl

theorem ofNat_toNat_eq_zext16 (nnn : Addr12) : BitVec.ofNat 16 nnn.toNat = zext16 nnn := BitVec.ofNat_toNat 16 nnn

/-- Settles O13: the pop has a slot to give exactly when sp is not 0. -/
theorem retResumesAfterTheCall : Obligations.RetResumesAfterTheCall :=
  fun _ => ⟨fun h => execRet_next.2 ⟨h, rfl⟩, execRet_of_empty⟩

/-- Settles O15: the push has room exactly when sp is not 16. -/
theorem callPushesItsOwnAddress : Obligations.CallPushesItsOwnAddress := by
  intro s nnn
  rw [ofNat_toNat_eq_zext16]
  exact ⟨fun h => execCall_next.2 ⟨h, rfl⟩, execCall_of_full⟩

/-! ## Jumps and skips -/

/-- R55: a pc from which no two bytes can be fetched is the fault of the STEP that fetches there. -/
theorem step_of_fetch_outOfBounds {s : State} (hm : s.mode = .running) (hpc : 4094 < s.pc.toNat) :
    step s = .fault (.outOfBoundsAccess (max s.pc.toNat 4096)) := by
  rw [step_of_running hm, runStep, fetchFault_eq_some.2 ⟨hpc, rfl⟩]; rfl

/-- Settles O14: the target is the new pc, and the fetch at 0xFFF is out of bounds. -/
theorem jumpGoesToItsTarget : Obligations.JumpGoesToItsTarget := by
  intro s nnn
  rw [ofNat_toNat_eq_zext16]
  refine ⟨execJp_next.2 rfl, fun hself => ?self, fun t hm hn h => ?top⟩
  case self =>
    have hpc : zext16 nnn = s.pc := BitVec.eq_of_toNat_eq ((toNat_zext16 nnn).trans hself.symm)
    exact execJp_next.2 (by rw [hpc])
  case top =>
    have hout : 4094 < (zext16 0xFFF#12).toNat := by decide
    rw [execJp_next.1 h, hn]
    exact step_of_fetch_outOfBounds hm hout

/-- A skip on a condition moves pc and nothing else. -/
theorem State.advance_ite (s : State) (p : Prop) [Decidable p] :
    s.advance (if p then 4 else 2) = { s with pc := s.pc + (if p then 4 else 2) } := by
  split <;> rfl

/-- A skip on the negated condition. -/
theorem State.advance_ite_not (s : State) (p : Prop) [Decidable p] :
    s.advance (if ¬p then 4 else 2) = { s with pc := s.pc + (if p then 2 else 4) } := by
  rw [State.advance_ite, ite_not]

/-- From the last word of memory a skip leaves it, taken or not. -/
theorem step_of_skip_at_top {s t : State} {p : Prop} [Decidable p] (hm : s.mode = .running) (hpc : s.pc = 0xFFE)
    (ht : t = s.advance (if p then 4 else 2)) : ∃ a, step t = .fault (.outOfBoundsAccess a) := by
  have htm : t.mode = .running := ht ▸ hm
  have htpc : 4094 < t.pc.toNat := by
    rw [pc_of_skip ht, hpc]
    split <;> decide
  exact ⟨_, step_of_fetch_outOfBounds htm htpc⟩

/-- Settles O17: the next state of each skip, and what the fetch after it meets at the top of memory. -/
theorem skipsAddFourOrTwo : Obligations.SkipsAddFourOrTwo := by
  intro s x y nn
  have hser (z : Nibble) := execSer_next.2 (s.advance_ite (s.getV x = s.getV z)).symm
  have hsner (z : Nibble) := execSner_next.2 (s.advance_ite_not (s.getV x = s.getV z)).symm
  refine ⟨execSei_next.2 (s.advance_ite _).symm, execSnei_next.2 (s.advance_ite_not _).symm, hser y, hsner y,
    (hser x).trans (by rw [if_pos rfl]), (hsner x).trans (by rw [if_pos rfl]), fun i t hi hm hpc h => ?_⟩
  simp only [List.mem_cons, List.not_mem_nil, or_false] at hi
  obtain rfl | rfl | rfl | rfl := hi
  · exact step_of_skip_at_top hm hpc (execSei_next.1 h)
  · exact step_of_skip_at_top hm hpc (execSnei_next.1 h)
  · exact step_of_skip_at_top hm hpc (execSer_next.1 h)
  · exact step_of_skip_at_top hm hpc (execSner_next.1 h)

end Sys2Proof.Machine

/-! # Proofs of the ALU family (spec/41_alu.md) -/

namespace Sys2Proof.Machine

/-! ## The flags and the results as arithmetic on the operands (R134) -/

section FlagsAndResults

variable (a b : Byte)

theorem flagByte_decide (p : Prop) [Decidable p] : flagByte (decide p) = if p then 1 else 0 := by
  simp only [flagByte, decide_eq_true_eq]

theorem carryFlag_eq : carryFlag a b = if a.toNat + b.toNat > 255 then 1 else 0 := flagByte_decide _

theorem noBorrowFlag_eq : noBorrowFlag a b = if a.toNat ≥ b.toNat then 1 else 0 := flagByte_decide _

/-- A bit as a flag is the operand divided by the bit's weight, modulo 2. -/
theorem flagByte_getLsbD (n : Nat) : flagByte (a.getLsbD n) = BitVec.ofNat 8 (a.toNat / 2 ^ n % 2) := by
  rw [← BitVec.testBit_toNat, Nat.testBit_eq_decide_div_mod_eq, flagByte_decide]
  obtain h | h := Nat.mod_two_eq_zero_or_one (a.toNat / 2 ^ n) <;> rw [h] <;> rfl

theorem shiftedOutRight_eq : shiftedOutRight a = BitVec.ofNat 8 (a.toNat % 2) := by
  rw [shiftedOutRight, flagByte_getLsbD, pow_zero, Nat.div_one]

/-- Bit 7 is the top bit, so nothing is left to reduce modulo 2. -/
theorem shiftedOutLeft_eq : shiftedOutLeft a = BitVec.ofNat 8 (a.toNat / 128) := by
  have hbit : a.toNat / 128 < 2 := by have := a.isLt; omega
  exact (flagByte_getLsbD a 7).trans (congrArg _ (Nat.mod_eq_of_lt hbit))

theorem ofNat_mod_256 (n : Nat) : BitVec.ofNat 8 (n % 256) = BitVec.ofNat 8 n := BitVec.eq_of_toNat_eq (by simp)

theorem sub_eq_ofNat_mod : a - b = BitVec.ofNat 8 ((a.toNat + 256 - b.toNat) % 256) := by bv_omega

theorem ushiftRight_one_eq : a >>> 1 = BitVec.ofNat 8 (a.toNat / 2) := by bv_omega

theorem shiftLeft_one_eq : a <<< 1 = BitVec.ofNat 8 (a.toNat * 2 % 256) := by bv_omega

end FlagsAndResults

/-! ## The next states -/

/-- D5: the flag is written last, so it is what VF holds at x = F. -/
theorem State.advance_setResultFlag (s : State) (x : Nibble) (r f : Byte) :
    (s.setResultFlag Params.vfOrder x r f).advance 2
      = { s with v := (s.v.set x.toNat r x.isLt).set 15 f, pc := s.pc + 2 } := rfl

/-- Settles O18: both are the one register write, then pc past the word. -/
theorem loadAndCopyWriteVX : Obligations.LoadAndCopyWriteVX :=
  fun _ _ _ _ => ⟨execLdi_next.2 rfl, execMov_next.2 rfl⟩

/-- Settles O20: the model's result and flag are the statement's arithmetic, and the flag is written last. -/
theorem addAndSubSetCarryAndNoBorrow : Obligations.AddAndSubSetCarryAndNoBorrow := by
  intro s x y
  constructor
  · rw [ofNat_mod_256, ← carryFlag_eq, ← s.advance_setResultFlag]
    exact execAdd_next.2 rfl
  · rw [← sub_eq_ofNat_mod, ← noBorrowFlag_eq, ← s.advance_setResultFlag]
    exact execSub_next.2 rfl

/-- Settles O21: the shifted operand is its half or its double, the flag its lowest or its highest bit. -/
theorem shiftsDropABitIntoVF : Obligations.ShiftsDropABitIntoVF := by
  intro s x y
  constructor
  · rw [← ushiftRight_one_eq, ← shiftedOutRight_eq, ← s.advance_setResultFlag]
    exact (execShr_next (y := y)).2 rfl
  · rw [← shiftLeft_one_eq, ← shiftedOutLeft_eq, ← s.advance_setResultFlag]
    exact (execShl_next (y := y)).2 rfl

/-- Settles O22: the register written is the draw masked, and a mask leaves no bit outside it. -/
theorem randomByteIsMasked : Obligations.RandomByteIsMasked := by
  intro s x nn
  refine ⟨execRnd_next.2 rfl, fun t h => ?_⟩
  have hx : t.getV x = Config.randomDraw s.draws &&& nn := by
    rw [execRnd_next.1 h, State.getV_advance, State.getV_setV, if_pos rfl]
  rw [hx, BitVec.and_assoc, BitVec.and_not_self]
  exact BitVec.and_zero

end Sys2Proof.Machine

/-! # Proofs of the index and memory family (spec/42_index_memory.md) -/

namespace Sys2Proof.Machine

/-! ## The index register -/

/-- R142: five times the whole of a byte is at most 1275. -/
theorem toNat_glyphAddress (b : Byte) : (BitVec.ofNat 16 (b.toNat * 5)).toNat = b.toNat * 5 := by
  have := b.isLt
  rw [BitVec.toNat_ofNat, Nat.mod_eq_of_lt (by omega)]

/-- Settles O24: both are the one write of I, then pc past the word. -/
theorem setIndexAndFontAddress : Obligations.SetIndexAndFontAddress := by
  intro s nnn x
  rw [ofNat_toNat_eq_zext16]
  exact ⟨execSeti_next.2 rfl, execFont_next.2 rfl, toNat_glyphAddress _⟩

/-- R145, R146: after an access in range the post-increment does not wrap. -/
theorem State.toNat_postIncI {s : State} {x : Nibble} (h : s.i.toNat + (x.toNat + 1) ≤ 4096) :
    (s.postIncI x).i.toNat = s.i.toNat + x.toNat + 1 := by
  rw [State.postIncI_i, BitVec.toNat_add, BitVec.toNat_ofNat, Nat.mod_eq_of_lt (a := x.toNat + 1) (by omega),
    Nat.mod_eq_of_lt (by omega), Nat.add_assoc]

/-! ## FX33 and FX55: what they store and what they keep -/

section Storing

variable {s t : State} {x : Nibble}

/-- R143, R145: the storing instructions change memory, I and pc. -/
theorem eq_of_exec_storing (h : exec (.bcd x) s = .next t ∨ exec (.stm x) s = .next t) :
    ∃ m iv, t = { s with mem := m, i := iv, pc := s.pc + 2 } := by
  obtain h | h := h
  · exact ⟨_, s.i, (execBcd_next.1 h).2⟩
  · exact ⟨_, _, (execStm_next.1 h).2⟩

theorem readByte_of_exec_bcd (hm : Memory.wf s.mem) (h : exec (.bcd x) s = .next t) {d : Nat} (hd : d < 3) :
    t.readByte (s.i.toNat + d) = (bcdDigits (s.getV x)).getD d 0 := by
  obtain ⟨hb, rfl⟩ := execBcd_next.1 h
  refine (Memory.read_writeBytes hm (bcdDigits (s.getV x)) hb (s.i.toNat + d)).trans ?_
  rw [length_bcdDigits, if_pos (by omega), Nat.add_sub_cancel_left]

theorem readByte_of_exec_bcd_outside (h : exec (.bcd x) s = .next t) {a : Nat}
    (ha : a < s.i.toNat ∨ s.i.toNat + 3 ≤ a) : t.readByte a = s.readByte a := by
  obtain ⟨-, rfl⟩ := execBcd_next.1 h
  exact Memory.read_writeBytes_of_outside s.mem (bcdDigits (s.getV x)) ha

theorem readByte_of_exec_stm_outside (h : exec (.stm x) s = .next t) {a : Nat}
    (ha : a < s.i.toNat ∨ s.i.toNat + x.toNat + 1 ≤ a) : t.readByte a = s.readByte a := by
  obtain ⟨-, rfl⟩ := execStm_next.1 h
  exact Memory.read_writeBytes_of_outside s.mem (s.regsTo x) (by rw [State.length_regsTo]; exact ha)

theorem toNat_i_of_exec_stm (h : exec (.stm x) s = .next t) : t.i.toNat = s.i.toNat + x.toNat + 1 := by
  obtain ⟨hb, rfl⟩ := execStm_next.1 h
  exact State.toNat_postIncI hb

end Storing

/-! ## The decimal digits (R144) -/

/-- Settles O27: each digit fits its byte, and division with remainder recomposes the value. -/
theorem bcdDigitsRecompose : Obligations.BcdDigitsRecompose := by
  intro v
  have hv := v.isLt
  have hfits {n : Nat} (hn : n < 256) : (BitVec.ofNat 8 n).toNat = n :=
    (BitVec.toNat_ofNat n 8).trans (Nat.mod_eq_of_lt hn)
  have hh : (BitVec.ofNat 8 (v.toNat / 100)).toNat = v.toNat / 100 := hfits (by omega)
  have ht : (BitVec.ofNat 8 (v.toNat / 10 % 10)).toNat = v.toNat / 10 % 10 := hfits (by omega)
  have hu : (BitVec.ofNat 8 (v.toNat % 10)).toNat = v.toNat % 10 := hfits (by omega)
  exact ⟨_, _, _, rfl, hh, ht, hu, by rw [hh, ht, hu]; omega⟩

/-- Settles O26: each of the three reads finds its digit, every other one is outside the range. -/
theorem bcdStoresThreeDigits : Obligations.BcdStoresThreeDigits := by
  intro s x hm hi
  obtain ⟨t, hnext⟩ : ∃ t, exec (.bcd x) s = .next t := ⟨_, execBcd_next.2 ⟨by omega, rfl⟩⟩
  obtain ⟨h, m, u, hdigits, hh, ht, hu, -⟩ := bcdDigitsRecompose (s.getV x)
  have hread {d : Nat} (hd : d < 3) : t.readByte (s.i.toNat + d) = [h, m, u].getD d 0 :=
    hdigits ▸ readByte_of_exec_bcd hm hnext hd
  refine ⟨t, hnext, ?_, ?_, ?_, ?_, fun a ha => readByte_of_exec_bcd_outside hnext (by omega)⟩
  · rw [(execBcd_next.1 hnext).2]; rfl
  · exact (congrArg BitVec.toNat (hread (d := 0) (by decide))).trans hh
  · exact (congrArg BitVec.toNat (hread (d := 1) (by decide))).trans ht
  · exact (congrArg BitVec.toNat (hread (d := 2) (by decide))).trans hu

/-- Settles O28: the bytes of the range are the registers, and I ends past it. -/
theorem stmStoresTheRegisters : Obligations.StmStoresTheRegisters := by
  intro s x hm hi
  have hnext : exec (.stm x) s = .next _ := execStm_next.2 ⟨by omega, rfl⟩
  exact ⟨_, hnext, rfl, toNat_i_of_exec_stm hnext, fun k => readByte_of_exec_stm hm hnext,
    fun a ha => readByte_of_exec_stm_outside hnext (by omega)⟩

/-- Settles O50: the reads outside the range, and memory, I and pc as all that changes. -/
theorem frameOfStoringInstructions : Obligations.FrameOfStoringInstructions := by
  intro s t x
  refine ⟨fun h => ⟨?_, fun a => readByte_of_exec_bcd_outside h⟩, fun h a => readByte_of_exec_stm_outside h, fun h => ?_⟩
  · rw [(execBcd_next.1 h).2]; rfl
  · obtain ⟨m, iv, rfl⟩ := eq_of_exec_storing h
    exact ⟨fun _ _ => rfl, ⟨rfl, rfl⟩, ⟨rfl, rfl⟩, ⟨rfl, rfl⟩, fun _ _ => rfl, rfl, rfl⟩

/-! ## FX65 -/

/-- R146: a register up to V[x] takes the byte of its number from I, one above keeps its value. -/
theorem getV_of_exec_ldm {s t : State} {x : Nibble} (h : exec (.ldm x) s = .next t) (k : Nibble) :
    t.getV k = if k.toNat ≤ x.toNat then s.readByte (s.i.toNat + k.toNat) else s.getV k := by
  obtain ⟨-, rfl⟩ := execLdm_next.1 h
  rw [State.getV_advance, State.getV_postIncI, State.getV_setRegs, Memory.getD_readBytes]
  exact if_congr Nat.lt_succ_iff rfl rfl

/-- Settles O29: the registers up to V[x] are the bytes of the range, and I ends past it. -/
theorem ldmLoadsTheRegisters : Obligations.LdmLoadsTheRegisters := by
  intro s x hi
  have hb : s.i.toNat + (x.toNat + 1) ≤ 4096 := by omega
  have hnext : exec (.ldm x) s = .next _ := execLdm_next.2 ⟨hb, rfl⟩
  exact ⟨_, hnext, rfl, State.toNat_postIncI hb, fun k hk => (getV_of_exec_ldm hnext k).trans (if_pos hk),
    fun k hk => (getV_of_exec_ldm hnext k).trans (if_neg (by omega))⟩

/-- Settles O30: FX65 reads the range FX55 wrote, and both add the same to the same I. -/
theorem storeThenLoadReproducesRegisters : Obligations.StoreThenLoadReproducesRegisters := by
  intro s t x w hm h
  obtain ⟨hb, ht⟩ := execStm_next.1 h
  have hload : exec (.ldm x) { t with i := s.i, v := w } = .next _ := execLdm_next.2 ⟨hb, rfl⟩
  refine ⟨_, hload, fun k hk => ?_, toNat_i_of_exec_stm h, ?_⟩
  · calc _ = t.readByte (s.i.toNat + k.toNat) := (getV_of_exec_ldm hload k).trans (if_pos hk)
      _ = s.getV k := readByte_of_exec_stm hm h hk
  · rw [ht]; rfl

end Sys2Proof.Machine

/-! # Proofs of the display family (spec/43_display.md) -/

namespace Sys2Proof.Machine

open Claims

/-! ## The pixels of a sprite are distinct (R162) -/

/-- Two numbers less than a modulus apart wrap to different coordinates. -/
theorem ofNat_add_inj {m : Nat} [NeZero m] {a i j : Nat} (hi : i < m) (hj : j < m)
    (h : Fin.ofNat m (a + i) = Fin.ofNat m (a + j)) : i = j :=
  (Nat.ModEq.add_left_cancel' a (congrArg Fin.val h)).eq_of_lt_of_lt hi hj

/-- R162: the 8 columns of a row are distinct modulo 64. -/
theorem rowPixels_nodup (msbLeft : Bool) (b : Byte) (x0 y : Nat) : (rowPixels msbLeft b x0 y).Nodup := by
  refine List.Nodup.map_on (fun c hc d hd h => ?_) (List.nodup_range.filter _)
  have hc8 := List.mem_range.1 (List.mem_of_mem_filter hc)
  have hd8 := List.mem_range.1 (List.mem_of_mem_filter hd)
  exact ofNat_add_inj (by omega) (by omega) (Prod.ext_iff.1 h).1

/-- R162: up to 32 rows are distinct modulo 32, so a row's pixels are in no row below it. -/
theorem spritePixels_nodup (msbLeft : Bool) (x0 y0 : Nat) {bs : List Byte} (h : bs.length ≤ 32) :
    (spritePixels msbLeft x0 y0 bs).Nodup := by
  induction bs generalizing y0 with
  | nil => exact List.nodup_nil
  | cons b bs ih =>
    rw [List.length_cons] at h
    refine (rowPixels_nodup msbLeft b x0 y0).append (ih (y0 + 1) (by omega)) fun q hq hq' => ?_
    obtain ⟨_, -, -, hrow⟩ := mem_rowPixels.1 hq
    obtain ⟨r, _, hr, _, -, -, hrow'⟩ := mem_spritePixels.1 hq'
    have hlt : r < bs.length := (List.getElem?_eq_some_iff.1 hr).1
    have hy : Fin.ofNat 32 (y0 + 0) = Fin.ofNat 32 (y0 + (1 + r)) := by
      rw [← Nat.add_assoc]
      exact (Prod.ext_iff.1 (hrow.symm.trans hrow')).2
    have := ofNat_add_inj (by decide) (by omega) hy
    omega

/-- Settles O35: a sprite has at most 15 rows. -/
theorem noPixelIsToggledTwice : Obligations.NoPixelIsToggledTwice := by
  intro s x y n msbLeft
  have := n.isLt
  exact spritePixels_nodup _ _ _ (by rw [Memory.length_readBytes]; omega)

/-! ## Covered pixels -/

theorem spriteBit_eq (msbLeft : Bool) (b : Byte) (col : Nat) :
    spriteBit msbLeft b col = b.getLsbD (if msbLeft then 7 - col else col) := by cases msbLeft <;> rfl

/-- The draw loop runs over exactly the covered pixels. -/
theorem mem_drawnPixels {s : State} {x y n : Nibble} {px : Fin 64} {py : Fin 32} :
    (px, py) ∈ drawnPixels Params.spriteMsbLeft x y n s ↔ Covered s x y n px py := by
  simp only [drawnPixels, mem_spritePixels, Memory.getElem?_readBytes, Option.ite_none_right_eq_some,
    Option.some.injEq, spriteBit_eq, Prod.mk.injEq, Fin.ext_iff, Fin.val_ofNat, Covered, State.readByte]
  constructor
  · rintro ⟨r, _, ⟨hr, rfl⟩, c, hc, hbit, hx, hy⟩
    exact ⟨r, hr, c, hc, hbit, hx, hy⟩
  · rintro ⟨r, hr, c, hc, hbit, hx, hy⟩
    exact ⟨r, _, ⟨hr, rfl⟩, c, hc, hbit, hx, hy⟩

/-- The covered pixels are a function of the two coordinates, I and memory. -/
theorem covered_congr {s t : State} {x y n : Nibble} (hx : t.getV x = s.getV x) (hy : t.getV y = s.getV y)
    (hi : t.i = s.i) (hm : SameBytes s t) (px : Fin 64) (py : Fin 32) :
    Covered t x y n px py ↔ Covered s x y n px py := by
  simp only [Covered, hx, hy, hi, hm _]

/-! ## What DXYN and 00E0 leave -/

theorem flagByte_eq_one {c : Bool} : flagByte c = 1 ↔ c = true := by cases c <;> decide

theorem flagByte_eq_zero {c : Bool} : flagByte c = 0 ↔ c = false := by cases c <;> decide

section Drawing

variable {s t : State} {x y n : Nibble} {px : Fin 64} {py : Fin 32}

/-- R160, R161: the display instructions change the framebuffer, the register file and pc. -/
theorem eq_of_exec_display (h : exec .cls s = .next t ∨ exec (.drw x y n) s = .next t) :
    t = { s with fb := t.fb, v := t.v, pc := s.pc + 2 } := by
  obtain h | h := h
  · rw [execCls_next.1 h]; rfl
  · rw [(execDrw_next.1 h).2]; rfl

/-- R161: of the registers DXYN writes VF alone. -/
theorem getV_of_exec_drw (h : exec (.drw x y n) s = .next t) {k : Nibble} (hk : k ≠ 0xF#4) : t.getV k = s.getV k := by
  obtain ⟨-, rfl⟩ := execDrw_next.1 h
  rw [State.getV_advance, State.getV_setVF, if_neg (show k ≠ vF from hk), State.getV_setFb]

theorem pixel_of_exec_drw (h : exec (.drw x y n) s = .next t) :
    t.fb.pixel px py = (s.fb.pixel px py ^^ decide ((px, py) ∈ drawnPixels Params.spriteMsbLeft x y n s)) := by
  obtain ⟨-, rfl⟩ := execDrw_next.1 h
  exact (drawPixels_spec (noPixelIsToggledTwice s x y n _) s.fb).1 (px, py)

theorem pixel_of_exec_drw_of_covered (h : exec (.drw x y n) s = .next t) (hc : Covered s x y n px py) :
    t.fb.pixel px py = !s.fb.pixel px py := by
  rw [pixel_of_exec_drw h, decide_eq_true (mem_drawnPixels.2 hc), Bool.xor_true]

theorem pixel_of_exec_drw_of_not_covered (h : exec (.drw x y n) s = .next t) (hc : ¬Covered s x y n px py) :
    t.fb.pixel px py = s.fb.pixel px py := by
  rw [pixel_of_exec_drw h, decide_eq_false (mt mem_drawnPixels.1 hc), Bool.xor_false]

/-- A collision is a covered pixel that was set. -/
theorem drawPixels_collision :
    (drawPixels s.fb (drawnPixels Params.spriteMsbLeft x y n s)).2 = true
      ↔ ∃ px py, Covered s x y n px py ∧ s.fb.pixel px py = true := by
  rw [(drawPixels_spec (noPixelIsToggledTwice s x y n _) s.fb).2]
  simp only [List.any_eq_true, Prod.exists, mem_drawnPixels]

theorem getV_vF_of_exec_drw (h : exec (.drw x y n) s = .next t) :
    t.getV 0xF#4 = flagByte (drawPixels s.fb (drawnPixels Params.spriteMsbLeft x y n s)).2 := by
  obtain ⟨-, rfl⟩ := execDrw_next.1 h
  exact (State.getV_setVF _ vF _).trans (if_pos rfl)

theorem getV_vF_of_exec_drw_eq_one (h : exec (.drw x y n) s = .next t) :
    t.getV 0xF#4 = 1 ↔ ∃ px py, Covered s x y n px py ∧ s.fb.pixel px py = true := by
  rw [getV_vF_of_exec_drw h, flagByte_eq_one, drawPixels_collision]

theorem getV_vF_of_exec_drw_eq_zero (h : exec (.drw x y n) s = .next t) :
    t.getV 0xF#4 = 0 ↔ ¬∃ px py, Covered s x y n px py ∧ s.fb.pixel px py = true := by
  rw [getV_vF_of_exec_drw h, flagByte_eq_zero, ← drawPixels_collision, Bool.not_eq_true]

/-- R163: where neither coordinate is VF, the second draw covers the pixels of the first. -/
theorem covered_after_exec_drw (hx : x ≠ 0xF#4) (hy : y ≠ 0xF#4) (h : exec (.drw x y n) s = .next t) (w : Word) :
    Covered { t with pc := w } x y n px py ↔ Covered s x y n px py := by
  refine covered_congr (getV_of_exec_drw h hx) (getV_of_exec_drw h hy) ?_ (fun a => ?_) px py
  · rw [eq_of_exec_display (.inr h)]
  · rw [eq_of_exec_display (.inr h)]; rfl

end Drawing

/-- Settles O33: blank is every pixel 0, and the rest of the state is the one before but for pc. -/
theorem clearScreenClearsEveryPixel : Obligations.ClearScreenClearsEveryPixel :=
  fun _ => ⟨_, execCls_next.2 rfl, rfl, Framebuffer.pixel_blank⟩

/-- Settles O34: the draw loop toggles each covered pixel once, and its collision is VF. -/
theorem drawInvertsTheCoveredPixels : Obligations.DrawInvertsTheCoveredPixels := by
  intro s x y n hb
  have hb' : n.toNat = 0 ∨ s.i.toNat + n.toNat ≤ 4096 := hb.imp_left (congrArg BitVec.toNat)
  obtain ⟨t, h⟩ : ∃ t, exec (.drw x y n) s = .next t := ⟨_, execDrw_next.2 ⟨hb', rfl⟩⟩
  exact ⟨t, h, eq_of_exec_display (.inr h), fun _ _ => pixel_of_exec_drw_of_covered h,
    fun _ _ => pixel_of_exec_drw_of_not_covered h, (getV_vF_of_exec_drw_eq_one h).2,
    (getV_vF_of_exec_drw_eq_zero h).2, fun k hk => getV_of_exec_drw h (List.mem_singleton.not.1 hk)⟩

/-- Settles O36: the second draw inverts the same pixels again, and collides where the first turned one on. -/
theorem drawingTwiceRestoresThePixels : Obligations.DrawingTwiceRestoresThePixels := by
  intro s t x y n hx hy h
  have hcov (px py) := covered_after_exec_drw (px := px) (py := py) hx hy h s.pc
  have hi : t.i = s.i := by rw [eq_of_exec_display (.inr h)]
  obtain ⟨u, h'⟩ : ∃ u, exec (.drw x y n) { t with pc := s.pc } = .next u :=
    ⟨_, execDrw_next.2 ⟨hi ▸ (execDrw_next.1 h).1, rfl⟩⟩
  refine ⟨u, h', fun px py => ?pixels, getV_vF_of_exec_drw_eq_one h, ?flag⟩
  case pixels =>
    by_cases hc : Covered s x y n px py
    · rw [pixel_of_exec_drw_of_covered h' ((hcov px py).2 hc), pixel_of_exec_drw_of_covered h hc, Bool.not_not]
    · rw [pixel_of_exec_drw_of_not_covered h' (mt (hcov px py).1 hc), pixel_of_exec_drw_of_not_covered h hc]
  case flag =>
    rw [getV_vF_of_exec_drw_eq_one h']
    refine exists_congr fun px => exists_congr fun py => ?_
    rw [hcov px py]
    refine and_congr_right fun hc => ?_
    rw [pixel_of_exec_drw_of_covered h hc, Bool.not_eq_true']

/-- Settles O52: framebuffer, registers and pc are all that changes, and of the registers VF alone, by DXYN. -/
theorem frameOfDisplayInstructions : Obligations.FrameOfDisplayInstructions := by
  intro s t x y n
  refine ⟨fun h k _ => ?_, fun h k hk => getV_of_exec_drw h (List.mem_singleton.not.1 hk), fun h => ?_⟩
  · rw [execCls_next.1 h, State.getV_advance, State.getV_setFb]
  · rw [eq_of_exec_display h]
    exact ⟨rfl, ⟨rfl, rfl⟩, ⟨rfl, rfl⟩, ⟨rfl, rfl⟩, rfl, fun _ => rfl, rfl⟩

end Sys2Proof.Machine

/-! # Proofs of the keypad and timer family (spec/44_keypad_timers.md) -/

namespace Sys2Proof.Machine

open Claims

/-! ## The report and the wait (R173, R174) -/

theorem State.report_eq_waitingForKey {s : State} : s.report = .waitingForKey ↔ s.mode = .awaitingKey := by
  unfold State.report
  cases s.mode <;> simp

/-- From Running mode only FX0A leads to AwaitingKey. -/
theorem mode_of_exec_eq_awaitingKey {i : Instr} {s t : State} (hm : s.mode = .running) (h : exec i s = .next t) :
    t.mode = .awaitingKey ↔ ∃ x, i = .wkey x := by
  constructor
  · intro ht
    exact (exec_effect h).mode_changed (by simp [hm, ht])
  · rintro ⟨x, rfl⟩
    rw [execWkey_next.1 h]

/-- The wait goes on exactly while no key is set. -/
theorem mode_of_waitStep_eq_awaitingKey {s t : State} (hm : s.mode = .awaitingKey) (h : waitStep s = .next t) :
    t.mode = .awaitingKey ↔ ∀ k, s.keySet k = false := by
  rw [← State.leastKey_eq_none]
  rcases waitStep_eq_next.1 h with ⟨hnone, rfl⟩ | ⟨k, hk, rfl⟩
  · exact iff_of_true hm hnone
  · exact iff_of_false (by simp) (by simp [hk])

/-- Settles O12: the report is the mode the STEP leaves, of a waiting STEP and of an instruction in turn. -/
theorem stepReportsByTheWaitTable : Obligations.StepReportsByTheWaitTable := by
  intro s t h
  rw [State.report_eq_waitingForKey]
  rcases step_eq_next.1 h with ⟨hm, hw⟩ | ⟨hm, -, i, hd, he⟩
  · simp [hm, mode_of_waitStep_eq_awaitingKey hm hw]
  · simp [hm, hd, mode_of_exec_eq_awaitingKey hm he]

/-- The end of a wait writes the key's number to the latched register and no other. -/
theorem State.getV_resume (s : State) (k j : Nibble) :
    (s.resume k).getV j = if j = s.waitX then k.setWidth 8 else s.getV j := by
  rw [State.resume, State.getV_advance, State.getV_setV]; rfl

/-- Settles O11: the waiting STEP answers the same state, or with a least set key the end of the wait. -/
theorem waitingStepTakesTheLeastKey : Obligations.WaitingStepTakesTheLeastKey := by
  intro s hm
  rw [step_of_awaitingKey hm]
  refine ⟨fun hnone => ⟨waitStep_eq_next.2 (.inl ⟨State.leastKey_eq_none.2 hnone, rfl⟩),
    State.report_eq_waitingForKey.2 hm⟩, fun k hk hleast => ⟨s.resume k, ?next, rfl, rfl, ?latched, fun j hj => ?others⟩⟩
  case next => exact waitStep_eq_next.2 (.inr ⟨k, State.leastKey_eq_some.2 ⟨hk, hleast⟩, rfl⟩)
  case latched => rw [State.getV_resume, if_pos rfl, BitVec.ofNat_toNat]
  case others => rw [State.getV_resume, if_neg (List.mem_singleton.not.1 hj)]

/-! ## The frame of the register instructions (R175; 41_alu) -/

/-- The whole effect of a register instruction: registers among ks, pc past the word, and the count of draws, now d. -/
def RegisterEffect (ks : List Nibble) (d : Nat) (s t : State) : Prop :=
  t = { s with v := t.v, pc := s.pc + 2, draws := d } ∧ SameRegsBut ks s t

section RegisterEffects

variable {s t : State} {x : Nibble} {ks : List Nibble}

theorem RegisterEffect.of_setV {d : Nat} {b : Byte} (hks : some [x] = some ks)
    (h : t = (State.setV { s with draws := d } x b).advance 2) : RegisterEffect ks d s t := by
  cases hks
  subst h
  refine ⟨rfl, fun k hk => ?_⟩
  rw [State.getV_advance, State.getV_setV, if_neg (List.mem_singleton.not.1 hk)]
  rfl

theorem RegisterEffect.of_setResultFlag {r f : Byte} (hks : some [x, 0xF#4] = some ks)
    (h : t = (s.setResultFlag Params.vfOrder x r f).advance 2) : RegisterEffect ks s.draws s t := by
  cases hks
  subst h
  refine ⟨rfl, fun k hk => ?_⟩
  obtain ⟨hx, hvf⟩ : k ≠ x ∧ k ≠ vF := by simpa [vF] using hk
  rw [State.getV_advance, Params.vfOrder, State.getV_setResultFlag_flagLast, if_neg hvf, if_neg hx]

/-- CXNN counts one draw, the other register instructions none. -/
theorem registerEffect_of_exec {i : Instr} (hi : regDests i = some ks) (h : exec i s = .next t) :
    ∃ d, RegisterEffect ks d s t ∧ ((∀ x nn, i ≠ .rnd x nn) → d = s.draws) := by
  cases i with
  | rnd x nn => exact ⟨s.draws + 1, .of_setV hi (execRnd_next.1 h), fun hne => absurd rfl (hne x nn)⟩
  | ldi x nn => exact ⟨_, .of_setV hi (execLdi_next.1 h), fun _ => rfl⟩
  | addi x nn => exact ⟨_, .of_setV hi (execAddi_next.1 h), fun _ => rfl⟩
  | mov x y => exact ⟨_, .of_setV hi (execMov_next.1 h), fun _ => rfl⟩
  | or x y => exact ⟨_, .of_setV hi (execOr_next.1 h), fun _ => rfl⟩
  | and x y => exact ⟨_, .of_setV hi (execAnd_next.1 h), fun _ => rfl⟩
  | xor x y => exact ⟨_, .of_setV hi (execXor_next.1 h), fun _ => rfl⟩
  | gdt x => exact ⟨_, .of_setV hi (execGdt_next.1 h), fun _ => rfl⟩
  | add x y => exact ⟨_, .of_setResultFlag hi (execAdd_next.1 h), fun _ => rfl⟩
  | sub x y => exact ⟨_, .of_setResultFlag hi (execSub_next.1 h), fun _ => rfl⟩
  | shr x y => exact ⟨_, .of_setResultFlag hi ((execShr_next (y := y)).1 h), fun _ => rfl⟩
  | shl x y => exact ⟨_, .of_setResultFlag hi ((execShl_next (y := y)).1 h), fun _ => rfl⟩
  | _ => cases hi

end RegisterEffects

/-- Settles O48: outside the registers, pc and the count of draws, the effect is the old state. -/
theorem frameOfRegisterInstructions : Obligations.FrameOfRegisterInstructions := by
  intro i ks s t hi h
  obtain ⟨d, ⟨ht, hregs⟩, hd⟩ := registerEffect_of_exec hi h
  refine ⟨hregs, ?_⟩
  rw [ht]
  exact ⟨rfl, ⟨rfl, rfl⟩, ⟨rfl, rfl⟩, ⟨rfl, rfl⟩, fun _ _ => rfl, rfl, fun _ => rfl, hd⟩

/-! ## TICK (R179) -/

theorem toNat_countDown (b : Byte) : (countDown b).toNat = b.toNat - 1 := by
  unfold countDown
  split
  · bv_omega
  · omega

/-- Settles O39: each timer counts down on its own. -/
theorem tickCountsEachTimerDown : Obligations.TickCountsEachTimerDown :=
  fun s => ⟨s.tick, rfl, rfl, toNat_countDown s.dt, toNat_countDown s.st⟩

end Sys2Proof.Machine

/-! # Proofs of the exception family (spec/60_exceptions.md) -/

namespace Sys2Proof.Machine

/-! ## Faults at the interface (R207, R209) -/

/-- R207: what a faulting STEP returns to its caller, and the state it leaves. -/
theorem hostStep_of_fault {s : State} {f : Fault} (h : step s = .fault f) : hostStep s = (.faulted f, s) := by
  rw [hostStep, h]

/-- A STEP that leaves the state as it was gives the same response however often it is repeated. -/
theorem runOps_replicate_step {s : State} {r : Response} (h : hostStep s = (r, s)) (n : Nat) :
    runOps (List.replicate n .step) s = (List.replicate n r, s) := by
  induction n with
  | zero => rfl
  | succ n ih =>
    have hrun : HostOp.step.run s = (r, s) := h
    rw [List.replicate_succ, runOps, hrun, ih, List.replicate_succ]

/-- Settles O44: a faulting STEP leaves the state from which it faults again. -/
theorem faultsLeaveTheStateAndRepeat : Obligations.FaultsLeaveTheStateAndRepeat :=
  fun _ _ n h => runOps_replicate_step (hostStep_of_fault h) n

/-! ## One STEP in Running mode, by the fetched word (R200, R202) -/

theorem step_of_decode {s : State} {i : Instr} (hm : s.mode = .running) (hpc : s.pc.toNat ≤ 4094)
    (hd : decodeWord (fetchWord s) = some i) : step s = exec i s := by
  have hf : fetchFault s = none := fetchFault_eq_none.2 hpc
  simp only [step_of_running hm, runStep, hf, hd]

theorem step_of_decode_none {s : State} (hm : s.mode = .running) (hpc : s.pc.toNat ≤ 4094)
    (hd : decodeWord (fetchWord s) = none) : step s = .fault (.unknownOpcode (fetchWord s)) := by
  have hf : fetchFault s = none := fetchFault_eq_none.2 hpc
  simp only [step_of_running hm, runStep, hf, hd]
  exact unknownWord_false _ s

/-- Settles O7: the word made of the two bytes at pc is the fetched one. -/
theorem stepRunsTheDecodedInstruction : Obligations.StepRunsTheDecodedInstruction := by
  intro s i hm hpc hd _
  rw [← fetchWord_eq_ofNat] at hd
  exact step_of_decode hm hpc hd

/-- Settles O9: the fault carries the fetched word, which is made of the two bytes at pc. -/
theorem unknownOpcodeFaults : Obligations.UnknownOpcodeFaults := by
  intro s hm hpc hd
  rw [← fetchWord_eq_ofNat]
  exact step_of_decode_none hm hpc hd

/-! ## The fetch that leaves memory (20_memory R55) -/

/-- The lowest address past memory that two bytes at pc touch: 4096 when only the second is outside (D13). -/
theorem max_eq_lowest_outOfBounds {pc : Nat} (h : 0xFFE < pc) : max pc 4096 = if pc = 0xFFF then 0x1000 else pc := by
  split <;> omega

/-- Settles O8: the fetch's own fault, its payload written by the two cases of pc. -/
theorem fetchOutOfBoundsFaults : Obligations.FetchOutOfBoundsFaults := by
  intro s hm hpc
  rw [← max_eq_lowest_outOfBounds hpc]
  exact step_of_fetch_outOfBounds hm hpc

end Sys2Proof.Machine

/-! # Proofs of the reset and hazards family (spec/70_reset_and_hazards.md) -/

namespace Sys2Proof.Machine

/-! ## LOAD (R238) -/

/-- A program that fits is written from 0x200 upward. -/
theorem hostLoad_of_le {s : State} {bs : List Byte} (h : bs.length ≤ 3584) :
    hostLoad bs s = (.loaded, s.writeBytes 0x200 bs) := by
  rw [hostLoad, State.load, if_neg (Nat.not_lt.2 h)]

/-- A program that is too long changes nothing. -/
theorem hostLoad_of_lt {s : State} {bs : List Byte} (h : 3584 < bs.length) : hostLoad bs s = (.loadError, s) := by
  rw [hostLoad, State.load, if_pos h]

theorem State.readByte_writeBytes_of_lt {s : State} (hm : Memory.wf s.mem) {a : Nat} {bs : List Byte}
    (ha : a + bs.length ≤ 4096) {j : Nat} (hj : j < bs.length) : (s.writeBytes a bs).readByte (a + j) = bs[j] := by
  refine (Memory.read_writeBytes hm bs ha (a + j)).trans ?_
  rw [if_pos (by omega), Nat.add_sub_cancel_left, List.getD_eq_getElem _ _ hj]

theorem State.readByte_writeBytes_of_outside (s : State) {a k : Nat} {bs : List Byte}
    (h : k < a ∨ a + bs.length ≤ k) : (s.writeBytes a bs).readByte k = s.readByte k :=
  Memory.read_writeBytes_of_outside s.mem bs h

/-- Settles O41: 0x200 and 3584 bytes upward end at 4096, so a program that fits is written within memory. -/
theorem loadCopiesTheProgram : Obligations.LoadCopiesTheProgram := by
  refine fun s bs hm => ⟨fun hle => ?_, hostLoad_of_lt⟩
  have hfit : 0x200 + bs.length ≤ 4096 := by omega
  exact ⟨s.writeBytes 0x200 bs, hostLoad_of_le hle, rfl, fun j => s.readByte_writeBytes_of_lt hm hfit,
    fun a => s.readByte_writeBytes_of_outside⟩

/-! ## SETKEY (R241) -/

theorem State.keySet_setKey_self (s : State) (k : Nibble) (p : Bool) : (s.setKey k p).keySet k = p :=
  Vector.getElem_set_self k.isLt

theorem State.keySet_setKey_of_ne (s : State) {j k : Nibble} (h : j ≠ k) (p : Bool) :
    (s.setKey k p).keySet j = s.keySet j :=
  Vector.getElem_set_ne k.isLt j.isLt fun hkj => h (BitVec.eq_of_toNat_eq hkj.symm)

/-- Settles O42: SETKEY writes one entry of the key vector. -/
theorem setKeySetsOneLevel : Obligations.SetKeySetsOneLevel :=
  fun s k p => ⟨s.setKey k p, rfl, rfl, s.keySet_setKey_self k p, fun _ hj => s.keySet_setKey_of_ne hj p⟩

/-! ## SNAPSHOT, READ_DT and READ_ST (R243, R244) -/

/-- Settles O43: each of the three returns a field and hands the state back. -/
theorem readsChangeNothing : Obligations.ReadsChangeNothing :=
  fun _ => ⟨rfl, rfl, rfl⟩

end Sys2Proof.Machine

/-! # Proofs of the statements across the families (spec/30_encoding.md to spec/70_reset_and_hazards.md) -/

/-! ## The words that decode to nothing (30_encoding R79) -/

namespace Sys2Proof

section UnknownWords

variable {op : Word} {x y n : Nibble} {nn : Byte}

/-- One test of a decoder's chain: nothing comes of it when the test fails and nothing comes of the rest. -/
theorem ite_some_eq_none {α : Type} {p : Prop} [Decidable p] {a : α} {o : Option α} :
    (if p then some a else o) = none ↔ ¬p ∧ o = none := by
  split <;> simp [*]

theorem fieldT_eq_iff {t : Nibble} : fieldT op = t ↔ op.toNat / 0x1000 = t.toNat := by
  rw [← toNat_fieldT, BitVec.toNat_inj]

theorem fieldN_ne_zero_iff : fieldN op ≠ 0x0#4 ↔ op.toNat % 16 ≠ 0 := by
  rw [← toNat_fieldN, Ne, ← BitVec.toNat_inj]; rfl

theorem decodeSystem_eq_none : decodeSystem op = none ↔ op.toNat ≠ 0x00E0 ∧ op.toNat ≠ 0x00EE := by
  simp [decodeSystem, ite_some_eq_none, ← BitVec.toNat_inj]

/-- The low digits of family 8 that R74 tests for, and those it leaves. -/
theorem aluDigit_not_tested : ∀ n : Nibble,
    (n ≠ 0x0#4 ∧ n ≠ 0x1#4 ∧ n ≠ 0x2#4 ∧ n ≠ 0x3#4 ∧ n ≠ 0x4#4 ∧ n ≠ 0x5#4 ∧ n ≠ 0x6#4 ∧ n ≠ 0xE#4)
      ↔ n.toNat ∈ [0x7, 0x8, 0x9, 0xA, 0xB, 0xC, 0xD, 0xF] := by
  decide

theorem decodeAlu_eq_none : decodeAlu x y n = none ↔ n.toNat ∈ [0x7, 0x8, 0x9, 0xA, 0xB, 0xC, 0xD, 0xF] := by
  simp only [decodeAlu, ite_some_eq_none, ← aluDigit_not_tested, and_true, ne_eq]

theorem decodeKey_eq_none : decodeKey x nn = none ↔ nn.toNat ∉ [0x9E, 0xA1] := by
  simp [decodeKey, ite_some_eq_none, ← BitVec.toNat_inj]

theorem decodeMisc_eq_none :
    decodeMisc x nn = none ↔ nn.toNat ∉ [0x07, 0x0A, 0x15, 0x18, 0x1E, 0x29, 0x33, 0x55, 0x65] := by
  simp [decodeMisc, ite_some_eq_none, ← BitVec.toNat_inj]

/-- Six of the sixteen families of R74 have words that decode to nothing. -/
theorem decodeWord_eq_none : decodeWord op = none ↔
    (fieldT op = 0x0#4 ∧ decodeSystem op = none)
      ∨ (fieldT op = 0x5#4 ∧ fieldN op ≠ 0x0#4)
      ∨ (fieldT op = 0x8#4 ∧ decodeAlu (fieldX op) (fieldY op) (fieldN op) = none)
      ∨ (fieldT op = 0x9#4 ∧ fieldN op ≠ 0x0#4)
      ∨ (fieldT op = 0xE#4 ∧ decodeKey (fieldX op) (fieldNN op) = none)
      ∨ (fieldT op = 0xF#4 ∧ decodeMisc (fieldX op) (fieldNN op) = none) := by
  rcases family_cases (fieldT op) with
    ht | ht | ht | ht | ht | ht | ht | ht | ht | ht | ht | ht | ht | ht | ht | ht
  all_goals simp [decodeWord, ht]

end UnknownWords

/-- Settles O4: the six families with unknown words, and in each the tests of its sub-decoder as numbers. -/
theorem unknownWordsAreTheListedOnes : Obligations.UnknownWordsAreTheListedOnes := by
  intro op
  rw [decodeWord_eq_none, decodeSystem_eq_none, decodeAlu_eq_none, decodeKey_eq_none, decodeMisc_eq_none,
    fieldN_ne_zero_iff, toNat_fieldN, toNat_fieldNN]
  simp only [fieldT_eq_iff]
  refine or_congr (and_congr_left fun _ => ?_) Iff.rfl
  exact Nat.div_eq_zero_iff_lt (by decide)

/-- Settles O5: seven of the words are encodings, and 8AB7 is in the enumeration of R79. -/
theorem decodesTheSpecsWords : Obligations.DecodesTheSpecsWords :=
  ⟨decodeWord_encode .cls, decodeWord_encode (.call 0x210), decodeWord_encode (.sei 0xA 0x7F),
    decodeWord_encode (.sub 0xA 0xB), decodeWord_encode (.drw 0x1 0x2 0x5), decodeWord_encode (.sknp 0x1),
    decodeWord_encode (.ldm 0x1), (unknownWordsAreTheListedOnes 0x8AB7).2 (by decide)⟩

end Sys2Proof

namespace Sys2Proof.Machine

open Claims

/-! ## The self-jump (70_reset_and_hazards R247) -/

/-- What a STEP that does not fault returns to its caller, and the state it leaves. -/
theorem hostStep_of_next {s t : State} (h : step s = .next t) : hostStep s = (.stepped t.report, t) := by
  rw [hostStep, h]

theorem State.report_of_running {s : State} (h : s.mode = .running) : s.report = .executed := by
  rw [State.report, h]

/-- At a self-jump the STEP jumps to where it is. -/
theorem hostStep_of_atSelfJump {s : State} (h : s.AtSelfJump) : hostStep s = (.stepped .executed, s) := by
  obtain ⟨hm, hf, nnn, hd, hpc⟩ := h
  have hjump : exec (.jp nnn) s = .next s := execJp_next.2 (by rw [hpc])
  have hstep : step s = .next s := (step_of_decode hm (fetchFault_eq_none.1 hf) hd).trans hjump
  rw [hostStep_of_next hstep, State.report_of_running hm]

/-- Settles O60: a STEP that leaves the state as it was can be repeated. -/
theorem selfJumpIsAFixedPoint : Obligations.SelfJumpIsAFixedPoint :=
  fun _ n h => runOps_replicate_step (hostStep_of_atSelfJump h) n

/-! ## The frame of the index, timer and wait instructions -/

section IndexTimerWait

variable {s t : State} {nnn : Addr12} {x : Nibble}

/-- All that SETI, FONT, ADI, LDM, WKEY, SDT and SST write between them. -/
theorem eq_of_exec_indexTimerWait {i : Instr}
    (hi : i ∈ [.seti nnn, .font x, .adi x, .ldm x, .wkey x, .sdt x, .sst x]) (h : exec i s = .next t) :
    t = { s with v := t.v, i := t.i, pc := t.pc, dt := t.dt, st := t.st, mode := t.mode, waitX := t.waitX } := by
  simp only [List.mem_cons, List.not_mem_nil, or_false] at hi
  obtain rfl | rfl | rfl | rfl | rfl | rfl | rfl := hi
  · rw [execSeti_next.1 h]; rfl
  · rw [execFont_next.1 h]; rfl
  · rw [execAdi_next.1 h]; rfl
  · rw [(execLdm_next.1 h).2]; rfl
  · rw [execWkey_next.1 h]
  · rw [execSdt_next.1 h]; rfl
  · rw [execSst_next.1 h]; rfl

/-- R141: of the registers FX1E writes VF alone. -/
theorem getV_of_exec_adi (h : exec (.adi x) s = .next t) {k : Nibble} (hk : k ≠ 0xF#4) : t.getV k = s.getV k := by
  rw [execAdi_next.1 h, State.getV_advance, State.getV_setVF, if_neg (show k ≠ vF from hk), State.getV_setI]

end IndexTimerWait

/-- Settles O49: the next state of each of the seven names what it writes. -/
theorem frameOfIndexTimerAndWaitInstructions : Obligations.FrameOfIndexTimerAndWaitInstructions := by
  intro s t nnn x
  refine ⟨fun h => ?seti, fun h => ?font, fun h => ⟨fun k hk => ?adiV, ?adi⟩, fun h => ⟨fun k hk => ?ldmV, ?ldm⟩,
    fun h => ?wkey, fun h => ?sdt, fun h => ?sst, fun i hi h => ?all⟩
  case seti => rw [execSeti_next.1 h]; exact ⟨fun _ _ => rfl, ⟨rfl, rfl⟩, ⟨rfl, rfl⟩⟩
  case font => rw [execFont_next.1 h]; exact ⟨fun _ _ => rfl, ⟨rfl, rfl⟩, ⟨rfl, rfl⟩⟩
  case adiV => exact getV_of_exec_adi h (List.mem_singleton.not.1 hk)
  case adi => rw [execAdi_next.1 h]; exact ⟨⟨rfl, rfl⟩, ⟨rfl, rfl⟩⟩
  case ldmV => exact (getV_of_exec_ldm h k).trans (if_neg (Nat.not_le.2 hk))
  case ldm => rw [(execLdm_next.1 h).2]; exact ⟨⟨rfl, rfl⟩, ⟨rfl, rfl⟩⟩
  case wkey => rw [execWkey_next.1 h]; exact ⟨fun _ _ => rfl, rfl, ⟨rfl, rfl⟩⟩
  case sdt => rw [execSdt_next.1 h]; exact ⟨fun _ _ => rfl, rfl, rfl, ⟨rfl, rfl⟩⟩
  case sst => rw [execSst_next.1 h]; exact ⟨fun _ _ => rfl, rfl, rfl, ⟨rfl, rfl⟩⟩
  case all =>
    rw [eq_of_exec_indexTimerWait hi h]
    exact ⟨⟨rfl, rfl⟩, fun _ _ => rfl, rfl, fun _ => rfl, rfl⟩

/-! ## The frame of the control transfers -/

/-- The whole effect of a control transfer: pc and, for CALL and RET, the stack, RET its pointer alone. -/
def TransferEffect (i : Instr) (nnn : Addr12) (s t : State) : Prop :=
  ∃ stack sp pc, t = { s with stack := stack, sp := sp, pc := pc }
    ∧ (i ≠ .ret → i ≠ .call nnn → stack = s.stack ∧ sp = s.sp) ∧ (i = .ret → stack = s.stack)

theorem TransferEffect.of_pc {i : Instr} {nnn : Addr12} {s t : State} {w : Word} (h : t = { s with pc := w }) :
    TransferEffect i nnn s t :=
  ⟨s.stack, s.sp, w, h, fun _ _ => ⟨rfl, rfl⟩, fun _ => rfl⟩

theorem transferEffect_of_exec {s t : State} {nnn : Addr12} {x y : Nibble} {nn : Byte} {i : Instr}
    (hi : i ∈ [.ret, .jp nnn, .call nnn, .jpv0 nnn, .sei x nn, .snei x nn, .ser x y, .sner x y, .skp x, .sknp x])
    (h : exec i s = .next t) : TransferEffect i nnn s t := by
  simp only [List.mem_cons, List.not_mem_nil, or_false] at hi
  obtain rfl | rfl | rfl | rfl | rfl | rfl | rfl | rfl | rfl | rfl := hi
  · obtain ⟨h0, ht⟩ := execRet_next.1 h
    exact ⟨_, _, _, ht, fun hret => absurd rfl hret, fun _ => rfl⟩
  · exact .of_pc (execJp_next.1 h)
  · obtain ⟨h0, ht⟩ := execCall_next.1 h
    exact ⟨_, _, _, ht, fun _ hcall => absurd rfl hcall, fun hret => nomatch hret⟩
  · exact .of_pc (execJpv0_next.1 h)
  · exact .of_pc (execSei_next.1 h)
  · exact .of_pc (execSnei_next.1 h)
  · exact .of_pc (execSer_next.1 h)
  · exact .of_pc (execSner_next.1 h)
  · obtain ⟨k, -, ht⟩ := execSkp_next.1 h
    exact .of_pc ht
  · obtain ⟨k, -, ht⟩ := execSknp_next.1 h
    exact .of_pc ht

/-- Settles O51: a state that differs in pc and the stack only, and who may change the stack. -/
theorem frameOfControlTransfers : Obligations.FrameOfControlTransfers := by
  intro s t nnn x y nn i hi h
  obtain ⟨stack, sp, pc, rfl, hstack, hret⟩ := transferEffect_of_exec hi h
  exact ⟨fun _ _ => rfl, rfl, ⟨rfl, rfl⟩, ⟨rfl, rfl⟩, fun _ _ => rfl, rfl, fun _ => rfl, rfl, hstack, hret⟩

/-! ## Next states of single instructions -/

/-- Settles O10: the encounter step is one update, whose mode is the report. -/
theorem wkeyEntersTheWait : Obligations.WkeyEntersTheWait := by
  refine fun s x => ⟨execWkey_next.2 rfl, fun t h => ?_⟩
  rw [State.report_eq_waitingForKey, execWkey_next.1 h]

/-- R103: the target of BNNN is the sum as a number. -/
theorem ofNat_add_eq_zext16_add (nnn : Addr12) (b : Byte) :
    BitVec.ofNat 16 (nnn.toNat + b.toNat) = zext16 nnn + b.setWidth 16 := by
  rw [← toNat_zext16_add, BitVec.ofNat_toNat, BitVec.setWidth_eq]

/-- Settles O16: the sum of a 12-bit and an 8-bit number is at most 0xFFF + 0xFF. -/
theorem jumpPlusV0IsNotReduced : Obligations.JumpPlusV0IsNotReduced := by
  intro s nnn
  have := nnn.isLt
  have := (s.getV 0x0#4).isLt
  rw [ofNat_add_eq_zext16_add]
  exact ⟨execJpv0_next.2 rfl, by omega⟩

/-- Settles O19: each is the one register write, then pc past the word. -/
theorem addImmediateAndLogicKeepVF : Obligations.AddImmediateAndLogicKeepVF := by
  intro s x y nn
  rw [ofNat_mod_256]
  exact ⟨execAddi_next.2 rfl, execOr_next.2 rfl, execAnd_next.2 rfl, execXor_next.2 rfl⟩

/-- Writes to two different registers commute. -/
theorem State.setV_comm (s : State) {x y : Nibble} (h : x ≠ y) (a b : Byte) :
    (s.setV x a).setV y b = (s.setV y b).setV x a := by
  have hxy : x.toNat ≠ y.toNat := fun e => h (BitVec.eq_of_toNat_eq e)
  have hv : (s.v.set x.toNat a x.isLt).set y.toNat b y.isLt = (s.v.set y.toNat b y.isLt).set x.toNat a x.isLt :=
    Vector.set_comm a b hxy
  exact congrArg (fun v => { s with v := v }) hv

/-- Settles O23: the two writes commute where they are to different registers, and at X = F the last one stays. -/
theorem vfOrderMattersOnlyForVF : Obligations.VfOrderMattersOnlyForVF := by
  refine fun s x r f => ⟨fun hx => s.setV_comm hx r f, ?_, ?_⟩
  · exact (s.getV_setResultFlag_flagLast 0xF#4 vF r f).trans (if_pos rfl)
  · exact (s.getV_setResultFlag_resultLast 0xF#4 0xF#4 r f).trans (if_pos rfl)

theorem indexOverflowFlag_eq (i : Word) (b : Byte) :
    indexOverflowFlag i b = if i.toNat + b.toNat > 0xFFF then 1 else 0 := flagByte_decide _

theorem ofNat_mod_65536 (n : Nat) : BitVec.ofNat 16 (n % 65536) = BitVec.ofNat 16 n := BitVec.eq_of_toNat_eq (by simp)

/-- Settles O25: the reduced sum is I, and the flag is of the sum before the reduction. -/
theorem addToIndexSetsOverflow : Obligations.AddToIndexSetsOverflow := by
  intro s x
  rw [ofNat_mod_65536, ← indexOverflowFlag_eq]
  exact execAdi_next.2 rfl

theorem keyIndex_of_toNat_eq {p : Config.KeyIndexPolicy} {b : Byte} {k : Nibble} (h : b.toNat = k.toNat) :
    keyIndex p b = .ok k := by
  have hk := k.isLt
  have hb : b.setWidth 4 = k := BitVec.eq_of_toNat_eq (by rw [BitVec.toNat_setWidth, h]; exact Nat.mod_eq_of_lt hk)
  rw [keyIndex_of_le (by omega), hb]

/-- D4: above 15 a keypad skip is a fault, whichever level it tests for. -/
theorem skipOnKey_of_gt {s : State} {x : Nibble} (h : 15 < (s.getV x).toNat) (want : Bool) :
    skipOnKey x want s = .fault (.keyIndexOutOfRange (s.getV x)) := by
  rw [skipOnKey, Params.keyIndexPolicy, keyIndex_fault_of_gt h]; rfl

/-- Settles O37: the key operand is k or a fault, and the level decides between 4 and 2. -/
theorem keySkipsTestTheLevel : Obligations.KeySkipsTestTheLevel := by
  refine fun s x => ⟨fun k hk => ⟨?skp, ?sknp⟩, fun h => ⟨skipOnKey_of_gt h true, skipOnKey_of_gt h false⟩⟩
  case skp => exact execSkp_next.2 ⟨k, keyIndex_of_toNat_eq hk, (s.advance_ite _).symm⟩
  case sknp =>
    refine execSknp_next.2 ⟨k, keyIndex_of_toNat_eq hk, ?_⟩
    rw [← State.advance_ite_not]
    simp only [Bool.not_eq_true]

/-- Settles O38: each is one write of a byte, then pc past the word. -/
theorem timerInstructionsMoveOneByte : Obligations.TimerInstructionsMoveOneByte :=
  fun _ _ => ⟨execGdt_next.2 rfl, execSdt_next.2 rfl, execSst_next.2 rfl⟩

end Sys2Proof.Machine
